-- ==== Sys2Proof/Word.lean ====
section
/-! DEFINITION. The units of data of the block (spec 00_scope R7, GLOSSARY; 30_encoding R60, R62). -/

namespace Sys2Proof

/-- A byte: 8 bits (R7). -/
abbrev Byte := BitVec 8

/-- A word: the 16-bit data unit exchanged with the sensor (R7, GLOSSARY). -/
abbrev Word := BitVec 16

/-- A 32-bit value: a CRC parameter, the running register, a command's `arg`, a response's `data`. -/
abbrev Long := BitVec 32

/-- A command word of the `cmd` port: `op` in bits 39:32, `arg` in bits 31:0 (R60). -/
abbrev CmdWord := BitVec 40

/-- A response word of the `rsp` port: `code` in bits 39:32, `data` in bits 31:0 (R62). -/
abbrev RspWord := BitVec 40

end Sys2Proof
end

