-- ==== Sys2Proof/Machine/CrcEngine.lean ====
section
/-! DEFINITION. The CRC engine as pure functions (spec 41_crc R90, R91): bit by bit, most significant bit first, no
reflection. The two literal readings of R90 are kept: the byte enters bits 7:0 for every width, and the inner
loop runs `W` times per byte (D8). -/

namespace Sys2Proof.Machine

open Sys2Proof

/-- `mask(w)` = 2^w − 1 (R7). -/
def mask (w : Nat) : Long := BitVec.ofNat 32 (2 ^ w - 1)

/-- One pass of the inner loop of R90: test the bit about to leave the top, shift left by one, mask, and on a 1 XOR
the polynomial. -/
def crcShift (W : Nat) (P r : Long) : Long :=
  let top := r.getLsbD (W - 1)
  let shifted := (r <<< 1) &&& mask W
  if top then shifted ^^^ (P &&& mask W) else shifted

/-- `n` passes of the inner loop. -/
def crcShifts (W : Nat) (P : Long) : Nat → Long → Long
  | 0, r => r
  | n + 1, r => crcShifts W P n (crcShift W P r)

/-- `crc_step(W, P, r, b)` (R90): one input byte. -/
def crcStep (W : Nat) (P r : Long) (b : Byte) : Long := crcShifts W P W (r ^^^ b.setWidth 32)

/-- `crc(W, P, I, X, bytes)` (R91): the checksum of an ordered byte sequence. -/
def crc (W : Nat) (P I X : Long) (bytes : List Byte) : Long :=
  (bytes.foldl (crcStep W P) (I &&& mask W) ^^^ X) &&& mask W

end Sys2Proof.Machine
end

