-- ==== Sys2Proof/Config.lean ====
section
/-! DEFINITION. The parameters of this implementation (spec 00_scope R6), at the values the spec fixes.
`wMax` and `nwMax` are the two OPEN parameters of 92_eei_decisions (D6, D11), taken at their defaults
(DESIGN CHOICE, unsafe for a block built with others: log entry 8). Nothing here is a free value: the spec
leaves no result of any command undefined. -/

namespace Sys2Proof.Config

/-- `W_MAX`: the largest CRC width in bits. -/
@[simp] abbrev wMax : Nat := 32

/-- `NW_MAX`: the largest number of data words of a command; the size of `TXW`. -/
@[simp] abbrev nwMax : Nat := 16

/-- `TXB_MAX` = 2 + 3 × `NW_MAX`: the size of `TXBUF`. -/
@[simp] abbrev txbMax : Nat := 50

/-- `RXB_MAX` = 3 × `NW_MAX`: the size of `RXBUF`. -/
@[simp] abbrev rxbMax : Nat := 48

/-- `RXW_MAX` = `RXB_MAX` / 2: the size of `RXW`. -/
@[simp] abbrev rxwMax : Nat := 24

/-- The widths `SETW` accepts (R6, R80). -/
@[simp] abbrev legalWidths : List (BitVec 6) := [8, 16, 24, 32]

end Sys2Proof.Config
end

