-- ==== Sys2Proof/Machine/State.lean ====
section
/-! DEFINITION. The state of the block as plain data (spec 10_state R10 to R30), the host's side of its ports, the
reasons a step could stop, and the state after reset. -/

namespace Sys2Proof.Machine

open Sys2Proof

/-- The complete architectural state of the block: exactly the components of R10, at the widths of R12 to R25. -/
structure Block where
  /-- `CRC_WIDTH` (R12): the CRC width in bits. -/
  crcWidth : BitVec 6
  /-- `CRC_POLY` (R13): the polynomial, all 32 stored bits. -/
  crcPoly : Long
  /-- `CRC_INIT` (R14): the initial value. -/
  crcInit : Long
  /-- `CRC_XOROUT` (R15): the final XOR value. -/
  crcXorout : Long
  /-- `FRM_CFG` (R16): bit 0 `RXCRC`, bit 1 `OPC2`, bit 2 `WLE`. -/
  frmCfg : BitVec 3
  /-- `CRC_REG` (R17): the running register of the streamed CRC. -/
  crcReg : Long
  /-- `TX_OPCP` (R19): the command under construction has an opcode. -/
  txOpcp : BitVec 1
  /-- `TX_OPC` (R19): its opcode. -/
  txOpc : Word
  /-- `TX_NW` (R20): its number of data words. -/
  txNw : BitVec 5
  /-- `TXW[0..15]` (R20): its data words. -/
  txw : Vector Word Config.nwMax
  /-- `TXRES` (R21): the kind of the last encode result. -/
  txRes : BitVec 2
  /-- `TX_LEN` (R21): the frame length in bytes. -/
  txLen : BitVec 6
  /-- `TXBUF[0..49]` (R21): the frame in wire order. -/
  txBuf : Vector Byte Config.txbMax
  /-- `RX_LEN` (R22): the number of received bytes. -/
  rxLen : BitVec 6
  /-- `RXBUF[0..47]` (R22): the received bytes in arrival order. -/
  rxBuf : Vector Byte Config.rxbMax
  /-- `RXRES` (R23): the kind of the last decode result. -/
  rxRes : BitVec 2
  /-- `RX_NW` (R23): the number of decoded words. -/
  rxNw : BitVec 5
  /-- `RXW[0..23]` (R23): the decoded words. -/
  rxw : Vector Word Config.rxwMax
  /-- `ERR_FLAGS` (R24): one sticky flag per response code. -/
  errFlags : BitVec 8
  /-- `ERR_INFO` (R25): payload of the first checksum error since the flags were cleared. -/
  errInfo : BitVec 24
  deriving DecidableEq, Repr

/-- `TXRES` = 0, `NONE` (R21). -/
abbrev txResNone : BitVec 2 := 0
/-- `TXRES` = 1, `FRAME` (R21). -/
abbrev txResFrame : BitVec 2 := 1
/-- `TXRES` = 2, `NOWRITE` (R21). -/
abbrev txResNoWrite : BitVec 2 := 2

/-- `RXRES` = 0, `NONE` (R23). -/
abbrev rxResNone : BitVec 2 := 0
/-- `RXRES` = 1, `WORDS` (R23). -/
abbrev rxResWords : BitVec 2 := 1
/-- `RXRES` = 2, `NODATA` (R23). -/
abbrev rxResNoData : BitVec 2 := 2
/-- `RXRES` = 3, `FAILED` (R23). -/
abbrev rxResFailed : BitVec 2 := 3

/-- Reset values of every register (R30). -/
def Block.reset : Block where
  crcWidth := 8
  crcPoly := 0x00000031
  crcInit := 0x000000FF
  crcXorout := 0x00000000
  frmCfg := 0b011
  crcReg := 0x000000FF
  txOpcp := 0
  txOpc := 0x0000
  txNw := 0
  txw := Vector.replicate Config.nwMax 0x0000
  txRes := txResNone
  txLen := 0
  txBuf := Vector.replicate Config.txbMax 0x00
  rxLen := 0
  rxBuf := Vector.replicate Config.rxbMax 0x00
  rxRes := rxResNone
  rxNw := 0
  rxw := Vector.replicate Config.rxwMax 0x0000
  errFlags := 0x00
  errInfo := 0x000000

/-- The moves of the host (R158): exactly these two. -/
inductive HostMove where
  /-- Present a 40-bit word on `cmd`. -/
  | command (c : CmdWord)
  /-- Assert `rst` between two commands, with or without a command word on `cmd` at that time (R150). -/
  | rst (presented : Option CmdWord)
  deriving DecidableEq, Repr

/-- The block and the host's side of its ports. `moves` and `rsps` are the model's own fields, no registers of
the block (DESIGN CHOICE, log entries 1 and 2): the host's moves still to come, first first, and the response
words given so far, oldest first. -/
structure State extends Block where
  moves : List HostMove
  rsps : List RspWord
  deriving DecidableEq, Repr

/-- Reasons the machine stops with a fault: none. Nobody raises one, because every command terminates and responds
and the block never halts, locks or waits (R133, R160; 93_implementation_defined 'stuck: never used here').
Safe or unsafe: log entry 11. -/
inductive Fault where
  deriving DecidableEq, Repr

/-- Reasons an instruction has no meaning in the model. -/
inductive Refusal where
  /-- Reserved for an instruction of the opcode table without a meaning yet, raised by its arm of `exec` alone.
  No arm raises it: all eighteen commands have their meaning. Safe: the model would stop where the block goes on. -/
  | notModelled (mnemonic : String)
  deriving DecidableEq, Repr

/-- The machine right after reset (R30, R150): no host move and no response yet (log entries 2 and 4). -/
def State.reset : State where
  toBlock := Block.reset
  moves := []
  rsps := []

end Sys2Proof.Machine
end

