-- ==== Sys2Proof/Machine/Flags.lean ====
section
/-! DEFINITION. Response codes and the sticky flags (spec 60_exceptions R130, R133; 10_state R24), the fields of
`FRM_CFG` (R16), and the views that hold nothing of their own: `CRC_RESULT`, `STATUS`, `CAP`, `err_o` (R18, R26,
R27, R140). -/

namespace Sys2Proof.Machine

open Sys2Proof

/-- The failures of the block (R130). -/
inductive ErrCode where
  /-- `E_ILLEGAL`: an illegal command word. -/
  | illegal
  /-- `E_OPERAND`: `SETW` with a width that is not legal. -/
  | operand
  /-- `E_ADDR`: `RD` of an empty address or beyond an array's count. -/
  | addr
  /-- `E_OVERFLOW`: `TXW` or `RXB` on a full array. -/
  | overflow
  /-- `E_CONFIG`: `ENC` or `DEC` under a configuration it refuses. -/
  | config
  /-- `E_LENGTH`: `DEC` of a length that is no multiple of the block size. -/
  | length
  /-- `E_CHECKSUM`: `DEC` met a wrong CRC byte. -/
  | checksum
  deriving DecidableEq, Repr

/-- The code of a failure: the response code and the bit number in `ERR_FLAGS` (R130). -/
def errNumber : ErrCode → Nat
  | .illegal => 1
  | .operand => 2
  | .addr => 3
  | .overflow => 4
  | .config => 5
  | .length => 6
  | .checksum => 7

/-- `OK` = 0x00 (R130). -/
def okCode : BitVec 8 := 0x00

/-- The response code of a failure (R130). -/
def errCode (e : ErrCode) : BitVec 8 := BitVec.ofNat 8 (errNumber e)

/-- `ERR_FLAGS[c] <- 1`, the other bits kept (R133). -/
def setFlag (flags : BitVec 8) (e : ErrCode) : BitVec 8 := flags ||| BitVec.twoPow 8 (errNumber e)

/-- `ERR_FLAGS[c]` (R24). -/
def flagSet (flags : BitVec 8) (e : ErrCode) : Bool := flags.getLsbD (errNumber e)

/-- `FRM_CFG.RXCRC`, bit 0 (R16): the decoder checks CRC bytes. -/
def rxCrcOn (b : Block) : Bool := b.frmCfg.getLsbD 0

/-- `FRM_CFG.OPC2`, bit 1 (R16): an opcode is sent as two bytes. -/
def opc2On (b : Block) : Bool := b.frmCfg.getLsbD 1

/-- `FRM_CFG.WLE`, bit 2 (R16): data words are little-endian. -/
def wleOn (b : Block) : Bool := b.frmCfg.getLsbD 2

/-- The CRC width as a number (R12). -/
def widthOf (b : Block) : Nat := b.crcWidth.toNat

/-- `CRC_RESULT` (R18). -/
def crcResult (b : Block) : Long := (b.crcReg ^^^ b.crcXorout) &&& mask (widthOf b)

/-- The level of `err_o` (R140), also `STATUS.ERR` (R26): 1 exactly while `ERR_FLAGS != 0`. -/
def errOut (b : Block) : Bool := b.errFlags != 0

/-- `STATUS` (R26): `TXRES` 1:0, `RXRES` 3:2, `OPCP` 4, `ERR` 5, zeros above. -/
def status (b : Block) : Long := 0#26 ++ BitVec.ofBool (errOut b) ++ b.txOpcp ++ b.rxRes ++ b.txRes

/-- `CAP` (R27): `W_MAX ‖ TXB_MAX ‖ RXB_MAX ‖ NW_MAX`, a byte each. -/
def cap : Long :=
  BitVec.ofNat 8 Config.wMax ++ BitVec.ofNat 8 Config.txbMax ++ BitVec.ofNat 8 Config.rxbMax ++
    BitVec.ofNat 8 Config.nwMax

/-- `fcrc(b0, b1)` (R96): the CRC byte of one frame word, under the parameter registers as they are now. `ENC`
and `DEC` call it only with `CRC_WIDTH` = 8. -/
def fcrc (b : Block) (b0 b1 : Byte) : Byte :=
  (crc (widthOf b) b.crcPoly b.crcInit b.crcXorout [b0, b1]).setWidth 8

end Sys2Proof.Machine
end

