-- ==== Sys2Proof/Machine/Operands.lean ====
section
/-! DEFINITION. How data words lie in bytes (spec 20_memory R41, R42), how the array registers are read and written
(R40, R45), and the read-address space of `RD` (R44, R51). -/

namespace Sys2Proof.Machine

open Sys2Proof

/-- `hi(w)` = `w[15:8]` (R7). -/
def hiByte (w : Word) : Byte := w.extractLsb' 8 8

/-- `lo(w)` = `w[7:0]` (R7). -/
def loByte (w : Word) : Byte := w.extractLsb' 0 8

/-- `pack(w)` (R41): the two bytes of a word, the first on the wire first. -/
def pack (wle : Bool) (w : Word) : Byte × Byte :=
  if wle then (loByte w, hiByte w) else (hiByte w, loByte w)

/-- `unpack(b0, b1)` (R41): the word of two bytes in arrival order. -/
def unpack (wle : Bool) (b0 b1 : Byte) : Word := if wle then b1 ++ b0 else b0 ++ b1

/-- `x[i] <- v; x[i+1] <- v'; ...` for the elements that exist. An element past the array's end exists only as an
index of a state no run from reset reaches (log entry 6). -/
def writeFrom {w n : Nat} (xs : Vector (BitVec w) n) (i : Nat) : List (BitVec w) → Vector (BitVec w) n
  | [] => xs
  | v :: vs => writeFrom (xs.setIfInBounds i v) (i + 1) vs

/-- The first `count` elements of an array register, the ones its count makes valid (R11). -/
def validElems {w n : Nat} (xs : Vector (BitVec w) n) (count : Nat) : List (BitVec w) := xs.toList.take count

/-- The data words of the command under construction, in order (R20). -/
def txWords (b : Block) : List Word := validElems b.txw b.txNw.toNat

/-- The bytes of the last frame, in wire order (R21). -/
def txBytes (b : Block) : List Byte := validElems b.txBuf b.txLen.toNat

/-- The received bytes, in arrival order (R22). -/
def rxBytes (b : Block) : List Byte := validElems b.rxBuf b.rxLen.toNat

/-- The words of the last decode, in block order (R23). -/
def rxWords (b : Block) : List Word := validElems b.rxw b.rxNw.toNat

/-- Element `i` of an array register through the read-address space: readable below the count only (R51). -/
def readElem {w n : Nat} (xs : Vector (BitVec w) n) (count i : Nat) : Option Long :=
  if i < count then xs[i]?.map fun v => v.setWidth 32 else none

/-- The single locations of the read-address space: address and value zero-extended to 32 bits (R44). -/
def registerMap (b : Block) : List (BitVec 16 × Long) :=
  [ (0x0000, b.crcWidth.setWidth 32),
    (0x0001, b.crcPoly),
    (0x0002, b.crcInit),
    (0x0003, b.crcXorout),
    (0x0004, b.frmCfg.setWidth 32),
    (0x0008, b.crcReg),
    (0x0009, crcResult b),
    (0x0010, status b),
    (0x0011, b.errFlags.setWidth 32),
    (0x0012, b.errInfo.setWidth 32),
    (0x0013, b.txOpc.setWidth 32),
    (0x0014, b.txNw.setWidth 32),
    (0x0015, b.txLen.setWidth 32),
    (0x0016, b.rxLen.setWidth 32),
    (0x0017, b.rxNw.setWidth 32),
    (0x001F, cap) ]

/-- `MemRead(addr, 1)` (R8, R44): `none` is the failure `E_ADDR`. The range is `addr[15:12]` and the index
`addr[11:0]`. -/
def memRead (b : Block) (a : BitVec 16) : Option Long :=
  let i := (a.extractLsb' 0 12).toNat
  match (a.extractLsb' 12 4).toNat with
  | 0 => (registerMap b).lookup a
  | 1 => readElem b.txw b.txNw.toNat i
  | 2 => readElem b.txBuf b.txLen.toNat i
  | 3 => readElem b.rxBuf b.rxLen.toNat i
  | 4 => readElem b.rxw b.rxNw.toNat i
  | _ => none

end Sys2Proof.Machine
end

