-- ==== Sys2Proof/Machine/Ops.lean ====
section
/-! DEFINITION. The shared operations of the commands: giving the response word (spec 30_encoding R62), failing
(60_exceptions R133, the block's only exception entry; there is no return from it, R137), and putting the block
in its reset state (70_reset_and_hazards R150, 44_system R121). -/

namespace Sys2Proof.Machine

open Sys2Proof

/-- `rsp <- (code, data)` (R8, R62): one more response word at the `rsp` port. -/
def respond (code : BitVec 8) (data : Long) (s : State) : State := { s with rsps := s.rsps ++ [code ++ data] }

/-- `rsp <- (OK, 0)` (R62). -/
def respondOk (s : State) : State := respond okCode 0 s

/-- `raise E_X(info)` (R8, R133): the response word, the sticky flag, and nothing else. What a rule lists under "on
failure" besides is done by the command that raises. -/
def raise (e : ErrCode) (info : Long) (s : State) : State :=
  respond (errCode e) info { s with errFlags := setFlag s.errFlags e }

/-- Every register to its reset value (R30, R121, R150). The ports are the host's and keep what they hold. -/
def resetRegisters (s : State) : State := { s with toBlock := Block.reset }

end Sys2Proof.Machine
end

