-- ==== Sys2Proof/Machine/Configuration.lean ====
section
/-! DEFINITION. Configuration commands (spec 40_config R80 to R84): `SETW`, `SETP`, `SETI`, `SETX`, `SETF`. -/

namespace Sys2Proof.Machine

open Sys2Proof

/-- `SETW w` (R80): a width that is not legal is refused and `CRC_WIDTH` kept. -/
def execSetw (w : BitVec 6) (s : State) : Host.Outcome State Fault Refusal :=
  if w ∈ Config.legalWidths then .next (respondOk { s with crcWidth := w }) else .next (raise .operand 0 s)

/-- `SETP v` (R81): all 32 bits are stored. -/
def execSetp (v : BitVec 32) (s : State) : Host.Outcome State Fault Refusal :=
  .next (respondOk { s with crcPoly := v })

/-- `SETI v` (R82): `CRC_REG` is not reloaded. -/
def execSeti (v : BitVec 32) (s : State) : Host.Outcome State Fault Refusal :=
  .next (respondOk { s with crcInit := v })

/-- `SETX v` (R83). -/
def execSetx (v : BitVec 32) (s : State) : Host.Outcome State Fault Refusal :=
  .next (respondOk { s with crcXorout := v })

/-- `SETF f` (R84): earlier encode and decode results are kept. -/
def execSetf (f : BitVec 3) (s : State) : Host.Outcome State Fault Refusal :=
  .next (respondOk { s with frmCfg := f })

end Sys2Proof.Machine
end

