-- ==== Sys2Proof/Machine/CrcStream.lean ====
section
/-! DEFINITION. The streamed CRC (spec 41_crc R92, R93): `CRCINIT`, `CRCB`. -/

namespace Sys2Proof.Machine

open Sys2Proof

/-- `CRCINIT` (R92). -/
def execCrcinit (s : State) : Host.Outcome State Fault Refusal :=
  .next (respondOk { s with crcReg := s.crcInit &&& mask (widthOf s.toBlock) })

/-- `CRCB b` (R93): under the width and polynomial of this moment. -/
def execCrcb (b : BitVec 8) (s : State) : Host.Outcome State Fault Refusal :=
  .next (respondOk { s with crcReg := crcStep (widthOf s.toBlock) s.crcPoly s.crcReg b })

end Sys2Proof.Machine
end

