-- ==== Sys2Proof/Machine/Decoder.lean ====
section
/-! DEFINITION. The decoder (spec 43_decode R110 to R113): `RXCLR`, `RXB`, `DEC`. -/

namespace Sys2Proof.Machine

open Sys2Proof

/-- `RXCLR` (R110): the bytes in `RXBUF` stay and become unreadable. -/
def execRxclr (s : State) : Host.Outcome State Fault Refusal := .next (respondOk { s with rxLen := 0 })

/-- `RXB b` (R111): append, or refuse when 48 bytes are held. -/
def execRxb (b : BitVec 8) (s : State) : Host.Outcome State Fault Refusal :=
  if s.rxLen.toNat = Config.rxbMax then .next (raise .overflow 0 s)
  else .next (respondOk { s with rxBuf := s.rxBuf.setIfInBounds s.rxLen.toNat b, rxLen := s.rxLen + 1 })

/-- The payload of a checksum error (R112, R136): `CK_BLK ‖ CK_EXP ‖ CK_RCV`. -/
def checksumPayload (k : Nat) (exp rcv : Byte) : BitVec 24 := BitVec.ofNat 8 k ++ exp ++ rcv

/-- The blocks of a response with CRC bytes, from block `k` on (R112, R113): the words of the blocks before the
first wrong CRC byte, and that block's payload if there is one. -/
def decodeTriples (b : Block) (k : Nat) : List Byte → List Word × Option (BitVec 24)
  | b0 :: b1 :: rcv :: rest =>
    if rcv ≠ fcrc b b0 b1 then ([], some (checksumPayload k (fcrc b b0 b1) rcv))
    else
      let later := decodeTriples b (k + 1) rest
      (unpack (wleOn b) b0 b1 :: later.1, later.2)
  | _ => ([], none)

/-- The blocks of a response without CRC bytes (R112, R113). -/
def decodePairs (b : Block) : List Byte → List Word
  | b0 :: b1 :: rest => unpack (wleOn b) b0 b1 :: decodePairs b rest
  | _ => []

/-- The block size `B` (R43, R112). -/
def blockSize (b : Block) : Nat := if rxCrcOn b then 3 else 2

/-- The words `DEC` reconstructs, and the payload of the first checksum error if there is one (R112). -/
def decodeBlocks (b : Block) : List Word × Option (BitVec 24) :=
  if rxCrcOn b then decodeTriples b 0 (rxBytes b) else (decodePairs b (rxBytes b), none)

/-- What every failing `DEC` does besides `raise`: no word is visible (R112, R130). -/
def withdrawWords (s : State) : State := { s with rxNw := 0, rxRes := rxResFailed }

/-- `ERR_INFO` takes the payload of the first checksum error since the flags were cleared (R25, R112). -/
def captureInfo (info : BitVec 24) (s : State) : State :=
  { s with errInfo := if flagSet s.errFlags .checksum then s.errInfo else info }

/-- `DEC` (R112), with the tests in the order of R135: no data, `E_CONFIG`, `E_LENGTH`, `E_CHECKSUM`. The words of
the blocks before a wrong CRC byte have been put in `RXW` by then, where nothing can read them (log entry 7). -/
def execDec (s : State) : Host.Outcome State Fault Refusal :=
  if s.rxLen = 0 then .next (respondOk { s with rxRes := rxResNoData, rxNw := 0 })
  else if rxCrcOn s.toBlock ∧ s.crcWidth ≠ 8 then .next (raise .config 0 (withdrawWords s))
  else if s.rxLen.toNat % blockSize s.toBlock ≠ 0 then .next (raise .length 0 (withdrawWords s))
  else
    let words := { s with rxw := writeFrom s.rxw 0 (decodeBlocks s.toBlock).1 }
    match (decodeBlocks s.toBlock).2 with
    | some info => .next (raise .checksum (info.setWidth 32) (captureInfo info (withdrawWords words)))
    | none => .next (respondOk { words with
        rxNw := BitVec.ofNat 5 (s.rxLen.toNat / blockSize s.toBlock)
        rxRes := rxResWords })

end Sys2Proof.Machine
end

