-- ==== Sys2Proof/Machine/Encoder.lean ====
section
/-! DEFINITION. The encoder (spec 42_encode R100 to R105): `TXCLR`, `TXOPC`, `TXW`, `ENC`. -/

namespace Sys2Proof.Machine

open Sys2Proof

/-- `TXCLR` (R100): the words in `TXW` stay and become unreadable. -/
def execTxclr (s : State) : Host.Outcome State Fault Refusal :=
  .next (respondOk { s with txOpcp := 0, txOpc := 0, txNw := 0 })

/-- `TXOPC h` (R101). -/
def execTxopc (h : BitVec 16) (s : State) : Host.Outcome State Fault Refusal :=
  .next (respondOk { s with txOpc := h, txOpcp := 1 })

/-- `TXW h` (R102): append, or refuse when sixteen words are held. -/
def execTxw (h : BitVec 16) (s : State) : Host.Outcome State Fault Refusal :=
  if s.txNw.toNat = Config.nwMax then .next (raise .overflow 0 s)
  else .next (respondOk { s with txw := s.txw.setIfInBounds s.txNw.toNat h, txNw := s.txNw + 1 })

/-- The opcode bytes of the frame (R103, R104): more significant first whatever `WLE` is, never a CRC byte. -/
def opcodeBytes (b : Block) : List Byte :=
  if b.txOpcp = 0 then [] else if opc2On b then [hiByte b.txOpc, loByte b.txOpc] else [loByte b.txOpc]

/-- The three bytes of one data word in the frame (R103, R104): its two bytes in wire order and their CRC byte. -/
def wordTriple (b : Block) (w : Word) : List Byte :=
  let p := pack (wleOn b) w
  [p.1, p.2, fcrc b p.1 p.2]

/-- The whole frame of the command under construction (R104). -/
def frameBytes (b : Block) : List Byte := opcodeBytes b ++ (txWords b).flatMap (wordTriple b)

/-- "Both opcode and data words are absent" (R103). -/
def nothingToSend (b : Block) : Bool := b.txOpcp == 0 && b.txNw == 0

/-- The two `E_CONFIG` cases of `ENC` (R103): a data word with a CRC width other than 8, or an opcode that does not
fit the configured single byte. -/
def encRefused (b : Block) : Bool :=
  (b.txNw != 0 && b.crcWidth != 8) || (b.txOpcp == 1 && !opc2On b && BitVec.ult 0xFF b.txOpc)

/-- `ENC` (R103): no-write first, then `E_CONFIG`, which withdraws the earlier frame, then the frame. -/
def execEnc (s : State) : Host.Outcome State Fault Refusal :=
  if nothingToSend s.toBlock then .next (respondOk { s with txLen := 0, txRes := txResNoWrite })
  else if encRefused s.toBlock then .next (raise .config 0 { s with txLen := 0, txRes := txResNone })
  else .next (respondOk { s with
    txBuf := writeFrom s.txBuf 0 (frameBytes s.toBlock)
    txLen := BitVec.ofNat 6 (frameBytes s.toBlock).length
    txRes := txResFrame })

end Sys2Proof.Machine
end

