-- ==== Sys2Proof/Machine/System.lean ====
section
/-! DEFINITION. System commands (spec 44_system R120 to R123): `NOP`, `RESET`, `ERRCLR`, `RD`. -/

namespace Sys2Proof.Machine

open Sys2Proof

/-- `NOP` (R120). -/
def execNop (s : State) : Host.Outcome State Fault Refusal := .next (respondOk s)

/-- `RESET` (R121): as `rst`, with a response. -/
def execReset (s : State) : Host.Outcome State Fault Refusal := .next (respondOk (resetRegisters s))

/-- `ERRCLR` (R122). -/
def execErrclr (s : State) : Host.Outcome State Fault Refusal :=
  .next (respondOk { s with errFlags := 0, errInfo := 0 })

/-- `RD a` (R123): a successful read changes no register. -/
def execRd (a : BitVec 16) (s : State) : Host.Outcome State Fault Refusal :=
  match memRead s.toBlock a with
  | some v => .next (respond okCode v s)
  | none => .next (raise .addr 0 s)

end Sys2Proof.Machine
end

