-- ==== Sys2Proof/Syntax.lean ====
section
/-! DEFINITION. The eighteen commands of the block (spec 30_encoding R64), one constructor per row of
spec/opcode_table.json. An operand has exactly the bits of its format (R61), so a command whose operand does
not fit cannot be written down. -/

namespace Sys2Proof

/-- A command: what a legal command word asks for. -/
inductive Instr where
  /-- `NOP` (R120): nothing. -/
  | nop
  /-- `RESET` (R121): every register to its reset value. -/
  | reset
  /-- `ERRCLR` (R122): clear the error record. -/
  | errclr
  /-- `RD a` (R123): read one location. -/
  | rd (a : BitVec 16)
  /-- `SETW w` (R80): set the CRC width. -/
  | setw (w : BitVec 6)
  /-- `SETP v` (R81): set the CRC polynomial. -/
  | setp (v : BitVec 32)
  /-- `SETI v` (R82): set the CRC initial value. -/
  | seti (v : BitVec 32)
  /-- `SETX v` (R83): set the CRC final XOR value. -/
  | setx (v : BitVec 32)
  /-- `SETF f` (R84): set the framer configuration. -/
  | setf (f : BitVec 3)
  /-- `CRCINIT` (R92): start a streamed CRC. -/
  | crcinit
  /-- `CRCB b` (R93): feed one byte to the streamed CRC. -/
  | crcb (b : BitVec 8)
  /-- `TXCLR` (R100): empty the command under construction. -/
  | txclr
  /-- `TXOPC h` (R101): give the command an opcode. -/
  | txopc (h : BitVec 16)
  /-- `TXW h` (R102): append a data word. -/
  | txw (h : BitVec 16)
  /-- `ENC` (R103): encode the command into a frame. -/
  | enc
  /-- `RXCLR` (R110): empty the received bytes. -/
  | rxclr
  /-- `RXB b` (R111): append a received byte. -/
  | rxb (b : BitVec 8)
  /-- `DEC` (R112): decode and verify the received bytes. -/
  | dec
  deriving DecidableEq, Repr

end Sys2Proof
end

