-- ==== Sys2Proof/Machine/Dispatch.lean ====
section
/-! DEFINITION. One arm per command of the opcode map (spec 30_encoding R64): the meaning it is given. -/

namespace Sys2Proof.Machine

open Sys2Proof

def exec (i : Instr) (s : State) : Host.Outcome State Fault Refusal :=
  match i with
  | .nop => Sys2Proof.Machine.execNop s
  | .reset => Sys2Proof.Machine.execReset s
  | .errclr => Sys2Proof.Machine.execErrclr s
  | .rd a => Sys2Proof.Machine.execRd a s
  | .setw w => Sys2Proof.Machine.execSetw w s
  | .setp v => Sys2Proof.Machine.execSetp v s
  | .seti v => Sys2Proof.Machine.execSeti v s
  | .setx v => Sys2Proof.Machine.execSetx v s
  | .setf f => Sys2Proof.Machine.execSetf f s
  | .crcinit => Sys2Proof.Machine.execCrcinit s
  | .crcb b => Sys2Proof.Machine.execCrcb b s
  | .txclr => Sys2Proof.Machine.execTxclr s
  | .txopc h => Sys2Proof.Machine.execTxopc h s
  | .txw h => Sys2Proof.Machine.execTxw h s
  | .enc => Sys2Proof.Machine.execEnc s
  | .rxclr => Sys2Proof.Machine.execRxclr s
  | .rxb b => Sys2Proof.Machine.execRxb b s
  | .dec => Sys2Proof.Machine.execDec s

end Sys2Proof.Machine
end

