-- ==== Sys2Proof/WellFormed.lean ====
section
/-! DEFINITION. Which command words are well formed (spec 30_encoding R64, R65), told by the mask and the match
of the opcode map. The table is transcribed from R64 and owes nothing to the decoder of Decode.lean, which
follows the procedure of R69; that the two agree is an obligation. An `Instr` needs no check of its own: its
operand has its format's bits by type. -/

namespace Sys2Proof

/-- One row of the opcode map: a command word `c` selects it when `c & mask = pattern`. -/
structure OpcodeRow where
  pattern : CmdWord
  mask : CmdWord
  deriving DecidableEq, Repr

/-- The row of a command in the opcode map of R64. -/
def rowOf : Instr → OpcodeRow
  | .nop => ⟨0x0000000000, 0xFFFFFFFFFF⟩
  | .reset => ⟨0x0100000000, 0xFFFFFFFFFF⟩
  | .errclr => ⟨0x0200000000, 0xFFFFFFFFFF⟩
  | .rd _ => ⟨0x0300000000, 0xFFFFFF0000⟩
  | .setw _ => ⟨0x1000000000, 0xFFFFFFFFC0⟩
  | .setp _ => ⟨0x1100000000, 0xFF00000000⟩
  | .seti _ => ⟨0x1200000000, 0xFF00000000⟩
  | .setx _ => ⟨0x1300000000, 0xFF00000000⟩
  | .setf _ => ⟨0x1400000000, 0xFFFFFFFFF8⟩
  | .crcinit => ⟨0x2000000000, 0xFFFFFFFFFF⟩
  | .crcb _ => ⟨0x2100000000, 0xFFFFFFFF00⟩
  | .txclr => ⟨0x3000000000, 0xFFFFFFFFFF⟩
  | .txopc _ => ⟨0x3100000000, 0xFFFFFF0000⟩
  | .txw _ => ⟨0x3200000000, 0xFFFFFF0000⟩
  | .enc => ⟨0x3300000000, 0xFFFFFFFFFF⟩
  | .rxclr => ⟨0x4000000000, 0xFFFFFFFFFF⟩
  | .rxb _ => ⟨0x4100000000, 0xFFFFFFFF00⟩
  | .dec => ⟨0x4200000000, 0xFFFFFFFFFF⟩

/-- The opcode map of R64: its eighteen rows in order. A row does not depend on the operand. -/
def opcodeMap : List OpcodeRow :=
  [ rowOf .nop, rowOf .reset, rowOf .errclr, rowOf (.rd 0),
    rowOf (.setw 0), rowOf (.setp 0), rowOf (.seti 0), rowOf (.setx 0), rowOf (.setf 0),
    rowOf .crcinit, rowOf (.crcb 0),
    rowOf .txclr, rowOf (.txopc 0), rowOf (.txw 0), rowOf .enc,
    rowOf .rxclr, rowOf (.rxb 0), rowOf .dec ]

/-- The command word selects the row (R64). -/
def OpcodeRow.selects (r : OpcodeRow) (c : CmdWord) : Bool := c &&& r.mask == r.pattern

/-- A command word is legal when it selects a row of the map; every other one is illegal (R65). -/
def wellFormedWord (c : CmdWord) : Bool := opcodeMap.any fun r => r.selects c

end Sys2Proof
end

