-- ==== Sys2Proof/Decode.lean ====
section
/-! DEFINITION. From command words to commands and back (spec 30_encoding R60, R61, R64, R69). Decoding is total
on all 2^40 words and rejects by name; the encoder is the assembler's `op ‖ zext_32(operand)` (R67). -/

namespace Sys2Proof

/-- Why a command word is illegal (R65, R69). Both fail with `E_ILLEGAL`. -/
inductive Reject where
  /-- `op` is not one of the eighteen. -/
  | unknownOp
  /-- A bit of `arg` above the operand field is 1. -/
  | reservedBit
  deriving DecidableEq, Repr

/-- What a command word is: a command, or an illegal word. -/
inductive Decoded where
  | instr (i : Instr)
  | illegal (why : Reject)
  deriving DecidableEq, Repr

/-- The operation code, bits 39:32 (R60). -/
def CmdWord.op (c : CmdWord) : BitVec 8 := c.extractLsb' 32 8

/-- The argument, bits 31:0 (R60). -/
def CmdWord.arg (c : CmdWord) : BitVec 32 := c.extractLsb' 0 32

/-- Format `Z`: no operand, all of `arg` reserved (R61). -/
def noOperand (arg : BitVec 32) (i : Instr) : Decoded :=
  if arg = 0 then .instr i else .illegal .reservedBit

/-- Formats `U3` to `U32`: the operand is the low `n` bits of `arg`, the rest reserved (R61). -/
def lowOperand (n : Nat) (arg : BitVec 32) (mk : BitVec n → Instr) : Decoded :=
  if arg >>> n = 0 then .instr (mk (arg.setWidth n)) else .illegal .reservedBit

/-- The decoding procedure of R69: first the operation code, then the reserved bits. -/
def decode (c : CmdWord) : Decoded :=
  match (CmdWord.op c).toNat with
  | 0x00 => noOperand (CmdWord.arg c) .nop
  | 0x01 => noOperand (CmdWord.arg c) .reset
  | 0x02 => noOperand (CmdWord.arg c) .errclr
  | 0x03 => lowOperand 16 (CmdWord.arg c) .rd
  | 0x10 => lowOperand 6 (CmdWord.arg c) .setw
  | 0x11 => lowOperand 32 (CmdWord.arg c) .setp
  | 0x12 => lowOperand 32 (CmdWord.arg c) .seti
  | 0x13 => lowOperand 32 (CmdWord.arg c) .setx
  | 0x14 => lowOperand 3 (CmdWord.arg c) .setf
  | 0x20 => noOperand (CmdWord.arg c) .crcinit
  | 0x21 => lowOperand 8 (CmdWord.arg c) .crcb
  | 0x30 => noOperand (CmdWord.arg c) .txclr
  | 0x31 => lowOperand 16 (CmdWord.arg c) .txopc
  | 0x32 => lowOperand 16 (CmdWord.arg c) .txw
  | 0x33 => noOperand (CmdWord.arg c) .enc
  | 0x40 => noOperand (CmdWord.arg c) .rxclr
  | 0x41 => lowOperand 8 (CmdWord.arg c) .rxb
  | 0x42 => noOperand (CmdWord.arg c) .dec
  | _ => .illegal .unknownOp

/-- The operation code of a command (R64). -/
def opcodeOf : Instr → BitVec 8
  | .nop => 0x00
  | .reset => 0x01
  | .errclr => 0x02
  | .rd _ => 0x03
  | .setw _ => 0x10
  | .setp _ => 0x11
  | .seti _ => 0x12
  | .setx _ => 0x13
  | .setf _ => 0x14
  | .crcinit => 0x20
  | .crcb _ => 0x21
  | .txclr => 0x30
  | .txopc _ => 0x31
  | .txw _ => 0x32
  | .enc => 0x33
  | .rxclr => 0x40
  | .rxb _ => 0x41
  | .dec => 0x42

/-- The argument of a command: its operand with zeros above it, 0 for format `Z` (R61, R67). -/
def argOf : Instr → BitVec 32
  | .nop => 0
  | .reset => 0
  | .errclr => 0
  | .rd a => a.setWidth 32
  | .setw w => w.setWidth 32
  | .setp v => v
  | .seti v => v
  | .setx v => v
  | .setf f => f.setWidth 32
  | .crcinit => 0
  | .crcb b => b.setWidth 32
  | .txclr => 0
  | .txopc h => h.setWidth 32
  | .txw h => h.setWidth 32
  | .enc => 0
  | .rxclr => 0
  | .rxb b => b.setWidth 32
  | .dec => 0

/-- The command word of a command: `op ‖ arg` (R60, R67). -/
def encode (i : Instr) : CmdWord := opcodeOf i ++ argOf i

/-- The command word whose low `nbits` bits are `w` and whose other bits are 0. Command words are 40-bit
parallel values, so the opcode table's bit numbers are the word's own (R42, D32; log entry 9). -/
def tableWord (nbits w : Nat) : CmdWord := BitVec.ofNat 40 (w % 2 ^ nbits)

/-- The command the decoder reads from the word `w` of an opcode-table row of `nbits` bits. -/
def decodeTableWord (nbits w : Nat) : Option Instr :=
  match decode (tableWord nbits w) with
  | .instr i => some i
  | .illegal _ => none

end Sys2Proof
end

