-- ==== Sys2Proof/Machine/Port.lean ====
section
/-! DEFINITION. What the block does at its ports (spec 00_scope R4, R5; 70_reset_and_hazards R150, R158): it takes
the host's next move, decodes a command word, and answers an illegal word or a reset without a command. -/

namespace Sys2Proof.Machine

open Sys2Proof

/-- What taking the host's next move leads to: a command to perform in a state, or a state reached without one. -/
inductive Taken where
  | perform (i : Instr) (s : State)
  | settled (s : State)
  deriving DecidableEq, Repr

/-- A command word at the `cmd` port: an illegal one fails with `E_ILLEGAL` and does nothing else (R65, R69). -/
def takeCommand (c : CmdWord) (s : State) : Taken :=
  match decode c with
  | .instr i => .perform i s
  | .illegal _ => .settled (raise .illegal 0 s)

/-- `rst` (R150): the reset state, no response word, and a command word presented meanwhile is not executed. -/
def takeReset (_presented : Option CmdWord) (s : State) : State := resetRegisters s

/-- The host's next move. Without one the block is idle, ready for a further command (R160, log entry 3). -/
def takeMove (s : State) : Taken :=
  match s.moves with
  | [] => .settled s
  | .command c :: rest => takeCommand c { s with moves := rest }
  | .rst presented :: rest => .settled (takeReset presented { s with moves := rest })

/-- The host presents one command word more, before all its other moves (R158). -/
def presentFirst (c : CmdWord) (s : State) : State := { s with moves := .command c :: s.moves }

/-- The host presents the commands one after another, before all its other moves (R48, R158). -/
def presentAll (is : List Instr) (s : State) : State :=
  { s with moves := is.map (fun i => HostMove.command (encode i)) ++ s.moves }

end Sys2Proof.Machine
end

