-- ==== Sys2Proof/Machine/Step.lean ====
section
/-! DEFINITION. One step of the machine: one move of the host, performed whole (spec 00_scope R4, 20_memory R48). -/

namespace Sys2Proof.Machine

open Sys2Proof

/-- One transaction: take the host's next move and, if it is a legal command word, perform the command. -/
def step (s : State) : Host.Outcome State Fault Refusal :=
  match takeMove s with
  | .perform i t => exec i t
  | .settled t => .next t

/-- The state with the word `w` of an opcode-table row of `nbits` bits at the `cmd` port as the host's very next
move (log entry 4). -/
def State.withFetchWord (s : State) (nbits w : Nat) : State := presentFirst (tableWord nbits w) s

end Sys2Proof.Machine
end

