-- ==== Sys2Proof/Machine/Assembler.lean ====
section
/-! DEFINITION. The one-line textual form of a command (spec 30_encoding R67), on lists of characters. What R67
leaves open of the form (which blanks separate, the case of hexadecimal digits) is log entry 12. -/

namespace Sys2Proof.Machine

open Sys2Proof

/-- The operation code of a mnemonic in upper case, and the width of its operand if it has one (R61, R64). -/
def mnemonicRow (m : List Char) : Option (BitVec 8 × Option Nat) :=
  [ (['N', 'O', 'P'], ((0x00 : BitVec 8), (none : Option Nat))),
    (['R', 'E', 'S', 'E', 'T'], (0x01, none)),
    (['E', 'R', 'R', 'C', 'L', 'R'], (0x02, none)),
    (['R', 'D'], (0x03, some 16)),
    (['S', 'E', 'T', 'W'], (0x10, some 6)),
    (['S', 'E', 'T', 'P'], (0x11, some 32)),
    (['S', 'E', 'T', 'I'], (0x12, some 32)),
    (['S', 'E', 'T', 'X'], (0x13, some 32)),
    (['S', 'E', 'T', 'F'], (0x14, some 3)),
    (['C', 'R', 'C', 'I', 'N', 'I', 'T'], (0x20, none)),
    (['C', 'R', 'C', 'B'], (0x21, some 8)),
    (['T', 'X', 'C', 'L', 'R'], (0x30, none)),
    (['T', 'X', 'O', 'P', 'C'], (0x31, some 16)),
    (['T', 'X', 'W'], (0x32, some 16)),
    (['E', 'N', 'C'], (0x33, none)),
    (['R', 'X', 'C', 'L', 'R'], (0x40, none)),
    (['R', 'X', 'B'], (0x41, some 8)),
    (['D', 'E', 'C'], (0x42, none)) ].lookup m

/-- The value of a digit in a base of at most 16. -/
def digitValue (base : Nat) (c : Char) : Option Nat :=
  let n := c.toNat
  let v := if 48 ≤ n ∧ n ≤ 57 then n - 48 else if 65 ≤ n ∧ n ≤ 70 then n - 55
    else if 97 ≤ n ∧ n ≤ 102 then n - 87 else base
  if v < base then some v else none

/-- The number of a row of digits, most significant first, continuing from `acc`. -/
def digitsValue (base acc : Nat) : List Char → Option Nat
  | [] => some acc
  | c :: cs => (digitValue base c).bind fun v => digitsValue base (acc * base + v) cs

/-- An unsigned number in decimal, in hexadecimal with `0x`, or in binary with `0b` (R67). -/
def numberValue : List Char → Option Nat
  | [] => none
  | '0' :: 'x' :: c :: cs => digitsValue 16 0 (c :: cs)
  | '0' :: 'b' :: c :: cs => digitsValue 2 0 (c :: cs)
  | c :: cs => digitsValue 10 0 (c :: cs)

/-- The blanks that separate the mnemonic and the operand. -/
def isBlank (c : Char) : Bool := c == ' ' || c == '\t' || c == '\r'

/-- The tokens of a line: the maximal runs of characters that are no blanks. `open_` is the run in progress, last
character first. -/
def lineTokens (open_ : List Char) : List Char → List (List Char)
  | [] => if open_ = [] then [] else [open_.reverse]
  | c :: cs =>
    if isBlank c then (if open_ = [] then lineTokens [] cs else open_.reverse :: lineTokens [] cs)
    else lineTokens (c :: open_) cs

/-- What a line is to the assembler. -/
inductive Line where
  /-- A blank line or a comment alone: ignored. -/
  | empty
  /-- A command, and its 40-bit encoding. -/
  | word (c : CmdWord)
  /-- A line the assembler refuses. -/
  | refused
  deriving DecidableEq, Repr

/-- `op ‖ zext_32(operand)`; an operand that does not fit its format's field is refused (R67). -/
def assembleOperand (op : BitVec 8) (bits n : Nat) : Line :=
  if n < 2 ^ bits then .word (op ++ BitVec.ofNat 32 n) else .refused

/-- One line (R67): `#` starts a comment; then a mnemonic and, for every format but `Z`, one operand. -/
def assembleLine (line : List Char) : Line :=
  match lineTokens [] (line.takeWhile (· != '#')) with
  | [] => .empty
  | [m] =>
    match mnemonicRow m with
    | some (op, none) => .word (op ++ 0#32)
    | _ => .refused
  | [m, operand] =>
    match mnemonicRow m, numberValue operand with
    | some (op, some bits), some n => assembleOperand op bits n
    | _, _ => .refused
  | _ => .refused

/-- A program: its lines' words in order, or `none` when the assembler refuses a line (R67). -/
def assemble : List (List Char) → Option (List CmdWord)
  | [] => some []
  | line :: rest =>
    match assembleLine line, assemble rest with
    | .empty, some ws => some ws
    | .word c, some ws => some (c :: ws)
    | _, _ => none

end Sys2Proof.Machine
end

