-- ==== Sys2Proof/Machine/Pseudo.lean ====
section
/-! DEFINITION. The pseudo-instructions of spec 30_encoding R68: each stands for a sequence of commands. -/

namespace Sys2Proof.Machine

open Sys2Proof

/-- The seven pseudo-instructions with their operands (R68). -/
inductive Pseudo where
  /-- `CRCCFG w, p, i, x`: set the four CRC parameters. -/
  | crccfg (w : BitVec 6) (p i x : Long)
  /-- `CRCMSG b0, ..., b(n−1)`: stream a whole message. -/
  | crcmsg (bytes : List Byte)
  /-- `RDCRC`: read `CRC_RESULT`. -/
  | rdcrc
  /-- `FRAME.O opc; w0, ..., w(n−1)`: encode a command with an opcode. -/
  | frameO (opc : Word) (words : List Word)
  /-- `FRAME.N w0, ..., w(n−1)`: encode a command without opcode. -/
  | frameN (words : List Word)
  /-- `PARSE b0, ..., b(n−1)`: decode a response. -/
  | parse (bytes : List Byte)
  /-- `RDSTAT`: read `STATUS`. -/
  | rdstat
  deriving DecidableEq, Repr

/-- The expansions of R68. -/
def expand : Pseudo → List Instr
  | .crccfg w p i x => [.setw w, .setp p, .seti i, .setx x]
  | .crcmsg bytes => .crcinit :: bytes.map .crcb
  | .rdcrc => [.rd 0x0009]
  | .frameO opc words => .txclr :: .txopc opc :: (words.map .txw ++ [.enc])
  | .frameN words => .txclr :: (words.map .txw ++ [.enc])
  | .parse bytes => .rxclr :: (bytes.map .rxb ++ [.dec])
  | .rdstat => [.rd 0x0010]

end Sys2Proof.Machine
end

