-- ==== Sys2Proof/Safety.lean ====
section
/-! DEFINITION. What holds of every state a run from reset reaches (spec 10_state R28), and when two states cannot
be told apart by any command (20_memory R51, 10_state R29), and the words claims are stated in. -/

namespace Sys2Proof.Machine

open Sys2Proof

/-- The invariants of R28, clause for clause. -/
abbrev Block.Inv (b : Block) : Prop :=
  b.crcWidth ∈ Config.legalWidths ∧
  b.txNw.toNat ≤ Config.nwMax ∧
  b.txLen.toNat ≤ Config.txbMax ∧
  b.rxLen.toNat ≤ Config.rxbMax ∧
  b.rxNw.toNat ≤ Config.rxwMax ∧
  (b.txOpcp = 0 → b.txOpc = 0) ∧
  b.txRes ≠ 3 ∧
  (b.txRes = txResFrame → 1 ≤ b.txLen.toNat) ∧
  (b.txRes = txResNone ∨ b.txRes = txResNoWrite → b.txLen = 0) ∧
  (b.rxRes = rxResWords → 1 ≤ b.rxNw.toNat) ∧
  (b.rxRes = rxResNone ∨ b.rxRes = rxResNoData ∨ b.rxRes = rxResFailed → b.rxNw = 0) ∧
  b.errFlags.getLsbD 0 = false ∧
  (b.errInfo ≠ 0 → flagSet b.errFlags .checksum = true)

/-- Two blocks that agree on every scalar register and on the valid elements of every array: nothing a command
can observe differs (R51). -/
structure Block.SameVisible (b c : Block) : Prop where
  crcWidth : b.crcWidth = c.crcWidth
  crcPoly : b.crcPoly = c.crcPoly
  crcInit : b.crcInit = c.crcInit
  crcXorout : b.crcXorout = c.crcXorout
  frmCfg : b.frmCfg = c.frmCfg
  crcReg : b.crcReg = c.crcReg
  txOpcp : b.txOpcp = c.txOpcp
  txOpc : b.txOpc = c.txOpc
  txNw : b.txNw = c.txNw
  txWords : txWords b = txWords c
  txRes : b.txRes = c.txRes
  txLen : b.txLen = c.txLen
  txBytes : txBytes b = txBytes c
  rxLen : b.rxLen = c.rxLen
  rxBytes : rxBytes b = rxBytes c
  rxRes : b.rxRes = c.rxRes
  rxNw : b.rxNw = c.rxNw
  rxWords : rxWords b = rxWords c
  errFlags : b.errFlags = c.errFlags
  errInfo : b.errInfo = c.errInfo

/-- The state after a command that leaves the registers at `b` and answers `code ‖ data` (R62): the host's moves
are untouched. -/
def answered (s : State) (code : BitVec 8) (data : Long) (b : Block) : State where
  toBlock := b
  moves := s.moves
  rsps := s.rsps ++ [code ++ data]

/-- A list of commands given to the block one after another from a state (R48): its steps, one a command. -/
def runAll (is : List Instr) (s : State) : Host.Outcome State Fault Refusal :=
  Host.Core.run Sys2Proof.core is.length (presentAll is s)

/-- How many of the host's moves are command words, each of which gets a response (R158). -/
def commandCount : List HostMove → Nat
  | [] => 0
  | .command _ :: rest => commandCount rest + 1
  | .rst _ :: rest => commandCount rest

end Sys2Proof.Machine
end

