-- ==== Sys2Proof/Certificates/Slice0/Obligations.lean ====
section
/-! DEFINITION. The statements about the block, taken from the numbered rules of spec/. A conclusion of the form
`exec i s = .next (answered s code data b)` says all of it: the command completes, its one response word is
`code ‖ data`, every register afterwards is as in `b`, and the host's moves are untouched; what `b` does not
name is unchanged, which is the frame. -/

open Sys2Proof Sys2Proof.Machine

/-! Encoding. -/

/-- Words written out from the encodings of 30_encoding R64, two that are illegal among them (R65). -/
def Obligations.DecodeReadsSpecWords : Prop :=
  decode 0x0000000000 = .instr .nop ∧ decode 0x030000001F = .instr (.rd 0x001F) ∧
  decode 0x1000000010 = .instr (.setw 16) ∧ decode 0x11FFFFFFFF = .instr (.setp 0xFFFFFFFF) ∧
  decode 0x1400000004 = .instr (.setf 0b100) ∧ decode 0x21000000BE = .instr (.crcb 0xBE) ∧
  decode 0x3100003608 = .instr (.txopc 0x3608) ∧ decode 0x32000001F4 = .instr (.txw 0x01F4) ∧
  decode 0x4100000092 = .instr (.rxb 0x92) ∧ decode 0x4200000000 = .instr .dec ∧
  decode 0x1000000048 = .illegal .reservedBit ∧ decode 0xFF00000000 = .illegal .unknownOp

/-- No operand bit of any command is dropped by encoding and decoding (R60, R61, R67). -/
def Obligations.DecodeOfEncodeIsTheCommand : Prop := ∀ i : Instr, decode (encode i) = .instr i

/-- A legal word stands for one command, whose encoding it is (R60, R61, R69). -/
def Obligations.EncodeOfDecodedIsTheWord : Prop :=
  ∀ (c : CmdWord) (i : Instr), decode c = .instr i → encode i = c

/-- R64: the map, command by command, and "exactly the legal words of a command match its row and no word matches two rows". -/
def Obligations.LegalWordsMatchExactlyTheirRow : Prop :=
  opcodeMap =
    [ ⟨0x0000000000, 0xFFFFFFFFFF⟩, ⟨0x0100000000, 0xFFFFFFFFFF⟩, ⟨0x0200000000, 0xFFFFFFFFFF⟩,
      ⟨0x0300000000, 0xFFFFFF0000⟩, ⟨0x1000000000, 0xFFFFFFFFC0⟩, ⟨0x1100000000, 0xFF00000000⟩,
      ⟨0x1200000000, 0xFF00000000⟩, ⟨0x1300000000, 0xFF00000000⟩, ⟨0x1400000000, 0xFFFFFFFFF8⟩,
      ⟨0x2000000000, 0xFFFFFFFFFF⟩, ⟨0x2100000000, 0xFFFFFFFF00⟩, ⟨0x3000000000, 0xFFFFFFFFFF⟩,
      ⟨0x3100000000, 0xFFFFFF0000⟩, ⟨0x3200000000, 0xFFFFFF0000⟩, ⟨0x3300000000, 0xFFFFFFFFFF⟩,
      ⟨0x4000000000, 0xFFFFFFFFFF⟩, ⟨0x4100000000, 0xFFFFFFFF00⟩, ⟨0x4200000000, 0xFFFFFFFFFF⟩ ] ∧
  (∀ (a h k : BitVec 16) (w : BitVec 6) (p i x : BitVec 32) (f : BitVec 3) (b d : BitVec 8),
    [ .nop, .reset, .errclr, .rd a, .setw w, .setp p, .seti i, .setx x, .setf f, .crcinit, .crcb b, .txclr, .txopc h,
      .txw k, .enc, .rxclr, .rxb d, .dec ].map rowOf = opcodeMap) ∧
  (∀ (c : CmdWord) (r : OpcodeRow), r ∈ opcodeMap →
    (r.selects c = true ↔ ∃ i, decode c = .instr i ∧ rowOf i = r)) ∧
  (∀ (c : CmdWord) (r r' : OpcodeRow), r ∈ opcodeMap → r' ∈ opcodeMap →
    r.selects c = true → r'.selects c = true → r = r')

/-- R61, R69: which words are commands, format by format; the operation code is looked at before the reserved
bits. -/
def Obligations.DecodeFollowsTheOperandFormats : Prop :=
  ∀ (op : BitVec 8) (arg : BitVec 32),
    (∀ i : Instr, (op, i) ∈ [((0x00 : BitVec 8), Instr.nop), (0x01, .reset), (0x02, .errclr), (0x20, .crcinit),
        (0x30, .txclr), (0x33, .enc), (0x40, .rxclr), (0x42, .dec)] →
      decode (op ++ arg) = if arg = 0 then .instr i else .illegal .reservedBit) ∧
    (op = 0x14 → decode (op ++ arg) =
      if arg.extractLsb' 3 29 = 0 then .instr (.setf (arg.extractLsb' 0 3)) else .illegal .reservedBit) ∧
    (op = 0x10 → decode (op ++ arg) =
      if arg.extractLsb' 6 26 = 0 then .instr (.setw (arg.extractLsb' 0 6)) else .illegal .reservedBit) ∧
    (op = 0x21 → decode (op ++ arg) =
      if arg.extractLsb' 8 24 = 0 then .instr (.crcb (arg.extractLsb' 0 8)) else .illegal .reservedBit) ∧
    (op = 0x41 → decode (op ++ arg) =
      if arg.extractLsb' 8 24 = 0 then .instr (.rxb (arg.extractLsb' 0 8)) else .illegal .reservedBit) ∧
    (op = 0x03 → decode (op ++ arg) =
      if arg.extractLsb' 16 16 = 0 then .instr (.rd (arg.extractLsb' 0 16)) else .illegal .reservedBit) ∧
    (op = 0x31 → decode (op ++ arg) =
      if arg.extractLsb' 16 16 = 0 then .instr (.txopc (arg.extractLsb' 0 16)) else .illegal .reservedBit) ∧
    (op = 0x32 → decode (op ++ arg) =
      if arg.extractLsb' 16 16 = 0 then .instr (.txw (arg.extractLsb' 0 16)) else .illegal .reservedBit) ∧
    (op = 0x11 → decode (op ++ arg) = .instr (.setp arg)) ∧
    (op = 0x12 → decode (op ++ arg) = .instr (.seti arg)) ∧
    (op = 0x13 → decode (op ++ arg) = .instr (.setx arg)) ∧
    (op ∉ [(0x00 : BitVec 8), 0x01, 0x02, 0x03, 0x10, 0x11, 0x12, 0x13, 0x14, 0x20, 0x21, 0x30, 0x31, 0x32,
        0x33, 0x40, 0x41, 0x42] →
      decode (op ++ arg) = .illegal .unknownOp)

/-- What the assembler accepts is a command of the map (R67). -/
def Obligations.AssembledLinesAreLegalWords : Prop :=
  ∀ (line : List Char) (c : CmdWord), assembleLine line = .word c → ∃ i, decode c = .instr i

/-! The ports, the step and reset. -/

/-- A step performs the command the host presents, and nothing is added around it. -/
def Obligations.StepPerformsTheDecodedCommand : Prop :=
  ∀ (s : State) (c : CmdWord) (rest : List HostMove) (i : Instr),
    s.moves = .command c :: rest → decode c = .instr i → step s = exec i { s with moves := rest }

/-- R65: an illegal word answers `E_ILLEGAL`, sets `ERR_FLAGS[1]` and changes no other register. -/
def Obligations.IllegalWordOnlySetsItsFlag : Prop :=
  ∀ (s : State) (c : CmdWord) (rest : List HostMove),
    s.moves = .command c :: rest → wellFormedWord c = false →
    step s = .next (answered { s with moves := rest } 0x01 0
      { s.toBlock with errFlags := s.errFlags ||| 0x02 })

/-- R150: `rst` puts every register in its reset value, gives no response word, and a command word presented
meanwhile is not executed. Without a move the block idles (R160, the model's log entry 3). -/
def Obligations.RstResetsAndAnswersNothing : Prop :=
  ∀ s : State,
    (∀ (p : Option CmdWord) (rest : List HostMove), s.moves = .rst p :: rest →
      step s = .next { toBlock := State.reset.toBlock, moves := rest, rsps := s.rsps }) ∧
    (s.moves = [] → step s = .next s)

/-- R62: exactly one response word per command word, legal or not, with a code of 0 to 7, and data only for a
successful `RD` and for a failing `DEC`. -/
def Obligations.EveryCommandWordGetsOneResponse : Prop :=
  ∀ (s : State) (c : CmdWord) (rest : List HostMove), s.moves = .command c :: rest →
    ∃ (t : State) (code : BitVec 8) (data : BitVec 32),
      step s = .next t ∧ t.moves = rest ∧ t.rsps = s.rsps ++ [code ++ data] ∧ code.toNat ≤ 7 ∧
      (data ≠ 0 →
        (code = 0x00 ∧ ∃ a, decode c = .instr (.rd a) ∧ memRead s.toBlock a = some data) ∨
        (code = 0x07 ∧ decode c = .instr .dec))

/-- R160, R158: the host's moves are all taken, one a step, the machine never stops, and each command word among
them has had its one response, after those that were there before. -/
def Obligations.EveryRunEndsWithAllCommandsAnswered : Prop :=
  ∀ s : State, ∃ t : State, ∃ rs : List RspWord,
    Host.Core.run Sys2Proof.core s.moves.length s = .next t ∧ t.moves = [] ∧ t.rsps = s.rsps ++ rs ∧
    rs.length = commandCount s.moves

/-- R30: the reset values, after reset, after the `RESET` command and after `rst`, and the views. -/
def Obligations.ResetLeavesTheResetValues : Prop :=
  ∀ b : Block,
    (b = State.reset.toBlock ∨ (∃ s t : State, exec .reset s = .next t ∧ b = t.toBlock) ∨
      (∃ (s t : State) (p : Option CmdWord) (rest : List HostMove),
        s.moves = .rst p :: rest ∧ step s = .next t ∧ b = t.toBlock)) →
    b.crcWidth = 8 ∧ b.crcPoly = 0x00000031 ∧ b.crcInit = 0x000000FF ∧ b.crcXorout = 0x00000000 ∧
    b.frmCfg = 0b011 ∧ b.crcReg = 0x000000FF ∧ b.txOpcp = 0 ∧ b.txOpc = 0x0000 ∧ b.txNw = 0 ∧
    (∀ i, i < 16 → b.txw[i]? = some 0x0000) ∧ b.txRes = 0 ∧ b.txLen = 0 ∧
    (∀ i, i < 50 → b.txBuf[i]? = some 0x00) ∧ b.rxLen = 0 ∧ (∀ i, i < 48 → b.rxBuf[i]? = some 0x00) ∧
    b.rxRes = 0 ∧ b.rxNw = 0 ∧ (∀ i, i < 24 → b.rxw[i]? = some 0x0000) ∧ b.errFlags = 0x00 ∧
    b.errInfo = 0x000000 ∧
    crcResult b = 0x000000FF ∧ status b = 0x00000000 ∧ cap = 0x20323010 ∧ errOut b = false

/-- R28 at reset. -/
def Obligations.ResetMeetsTheInvariant : Prop := State.reset.Inv

/-- R28: every step, whatever the host does, keeps the invariant, in every state that meets it. -/
def Obligations.StepKeepsTheInvariant : Prop :=
  ∀ s t : State, s.Inv → step s = .next t → t.Inv

/-- R28: "In every reachable state", for every sequence of host moves from reset. -/
def Obligations.ReachableStatesMeetTheInvariant : Prop :=
  ∀ (ms : List HostMove) (n : Nat) (t : State),
    Host.Core.run Sys2Proof.core n { State.reset with moves := ms } = .next t → t.Inv

/-! System commands. -/

/-- R120. -/
def Obligations.NopOnlyAnswersOk : Prop :=
  decode 0x0000000000 = .instr .nop ∧ decode 0x0000000001 = .illegal .reservedBit ∧
  ∀ s : State, exec .nop s = .next (answered s 0x00 0 s.toBlock)

/-- R121: the registers of reset, spelled out by `ResetLeavesTheResetValues`, and a response. -/
def Obligations.ResetCommandResetsAndAnswersOk : Prop :=
  decode 0x0100000000 = .instr .reset ∧ (∀ arg : BitVec 32, arg ≠ 0 → decode (0x01#8 ++ arg) = .illegal .reservedBit) ∧
  ∀ s : State, exec .reset s = .next (answered s 0x00 0 State.reset.toBlock)

/-- R122: the error record alone is cleared; `STATUS.ERR` and `err_o` go to 0; with no error recorded nothing
changes; and no other command but `RESET` clears a flag. -/
def Obligations.ErrclrClearsTheErrorRecord : Prop :=
  decode 0x0200000000 = .instr .errclr ∧
  ∀ s : State,
    exec .errclr s = .next (answered s 0x00 0 { s.toBlock with errFlags := 0, errInfo := 0 }) ∧
    (s.errFlags = 0 ∧ s.errInfo = 0 → exec .errclr s = .next (answered s 0x00 0 s.toBlock)) ∧
    (∀ t : State, exec .errclr s = .next t → errOut t.toBlock = false ∧ (status t.toBlock).getLsbD 5 = false) ∧
    ∀ (i : Instr) (t : State) (j : Nat),
      exec i s = .next t → s.errFlags.getLsbD j = true → t.errFlags.getLsbD j = false → i = .errclr ∨ i = .reset

/-- R123: a successful read answers the value and changes no state at all; a read of nothing fails with
`E_ADDR`. -/
def Obligations.RdAnswersTheReadMap : Prop :=
  ∀ (s : State) (a : BitVec 16),
    decode (0x03#8 ++ 0#16 ++ a) = .instr (.rd a) ∧
    (∀ v, memRead s.toBlock a = some v → exec (.rd a) s = .next (answered s 0x00 v s.toBlock)) ∧
    (memRead s.toBlock a = none →
      exec (.rd a) s = .next (answered s 0x03 0 { s.toBlock with errFlags := s.errFlags ||| 0x08 }))

/-- R44, R51: the read-address space, location by location, and that nothing else is readable; in particular no
element at or beyond its array's count. -/
def Obligations.ReadMapIsTheTable : Prop :=
  ∀ b : Block,
    memRead b 0x0000 = some (b.crcWidth.setWidth 32) ∧ memRead b 0x0001 = some b.crcPoly ∧
    memRead b 0x0002 = some b.crcInit ∧ memRead b 0x0003 = some b.crcXorout ∧
    memRead b 0x0004 = some (b.frmCfg.setWidth 32) ∧ memRead b 0x0008 = some b.crcReg ∧
    memRead b 0x0009 = some ((b.crcReg ^^^ b.crcXorout) &&& mask b.crcWidth.toNat) ∧
    memRead b 0x0010 = some (status b) ∧ memRead b 0x0011 = some (b.errFlags.setWidth 32) ∧
    memRead b 0x0012 = some (b.errInfo.setWidth 32) ∧ memRead b 0x0013 = some (b.txOpc.setWidth 32) ∧
    memRead b 0x0014 = some (b.txNw.setWidth 32) ∧ memRead b 0x0015 = some (b.txLen.setWidth 32) ∧
    memRead b 0x0016 = some (b.rxLen.setWidth 32) ∧ memRead b 0x0017 = some (b.rxNw.setWidth 32) ∧
    memRead b 0x001F = some 0x20323010 ∧
    (∀ (i : Nat) (h : i < 16), i < b.txNw.toNat →
      memRead b (BitVec.ofNat 16 (0x1000 + i)) = some (b.txw[i].setWidth 32)) ∧
    (∀ (i : Nat) (h : i < 50), i < b.txLen.toNat →
      memRead b (BitVec.ofNat 16 (0x2000 + i)) = some (b.txBuf[i].setWidth 32)) ∧
    (∀ (i : Nat) (h : i < 48), i < b.rxLen.toNat →
      memRead b (BitVec.ofNat 16 (0x3000 + i)) = some (b.rxBuf[i].setWidth 32)) ∧
    (∀ (i : Nat) (h : i < 24), i < b.rxNw.toNat →
      memRead b (BitVec.ofNat 16 (0x4000 + i)) = some (b.rxw[i].setWidth 32)) ∧
    (∀ (a : BitVec 16) (v : BitVec 32), memRead b a = some v →
      a ∈ [(0x0000 : BitVec 16), 0x0001, 0x0002, 0x0003, 0x0004, 0x0008, 0x0009, 0x0010, 0x0011, 0x0012, 0x0013,
        0x0014, 0x0015, 0x0016, 0x0017, 0x001F] ∨
      (∃ i, i < 16 ∧ i < b.txNw.toNat ∧ a.toNat = 0x1000 + i) ∨
      (∃ i, i < 50 ∧ i < b.txLen.toNat ∧ a.toNat = 0x2000 + i) ∨
      (∃ i, i < 48 ∧ i < b.rxLen.toNat ∧ a.toNat = 0x3000 + i) ∨
      (∃ i, i < 24 ∧ i < b.rxNw.toNat ∧ a.toNat = 0x4000 + i))

/-- R26, R140: the fields of `STATUS`, and that its `ERR` bit is the level of `err_o`. -/
def Obligations.StatusShowsItsFields : Prop :=
  ∀ b : Block,
    (status b).extractLsb' 0 2 = b.txRes ∧ (status b).extractLsb' 2 2 = b.rxRes ∧
    (status b).extractLsb' 4 1 = b.txOpcp ∧ ((status b).getLsbD 5 = true ↔ b.errFlags ≠ 0) ∧
    (status b).extractLsb' 6 26 = 0 ∧ (errOut b = true ↔ b.errFlags ≠ 0)

/-! Configuration commands. -/

/-- R80. -/
def Obligations.SetwTakesLegalWidthsOnly : Prop :=
  decode 0x1000000040 = .illegal .reservedBit ∧
  ∀ (s : State) (w : BitVec 6),
    decode (0x10#8 ++ 0#26 ++ w) = .instr (.setw w) ∧
    (w = 8 ∨ w = 16 ∨ w = 24 ∨ w = 32 →
      exec (.setw w) s = .next (answered s 0x00 0 { s.toBlock with crcWidth := w })) ∧
    (w ≠ 8 ∧ w ≠ 16 ∧ w ≠ 24 ∧ w ≠ 32 →
      exec (.setw w) s = .next (answered s 0x02 0 { s.toBlock with errFlags := s.errFlags ||| 0x04 }))

/-- R81 to R84: each stores its operand whole in its own register and touches nothing else. -/
def Obligations.ConfigurationCommandsStoreTheirOperand : Prop :=
  ∀ (s : State) (v : BitVec 32) (f : BitVec 3),
    (decode (0x11#8 ++ v) = .instr (.setp v) ∧
      exec (.setp v) s = .next (answered s 0x00 0 { s.toBlock with crcPoly := v })) ∧
    (decode (0x12#8 ++ v) = .instr (.seti v) ∧
      exec (.seti v) s = .next (answered s 0x00 0 { s.toBlock with crcInit := v })) ∧
    (decode (0x13#8 ++ v) = .instr (.setx v) ∧
      exec (.setx v) s = .next (answered s 0x00 0 { s.toBlock with crcXorout := v })) ∧
    (decode (0x14#8 ++ 0#29 ++ f) = .instr (.setf f) ∧
      exec (.setf f) s = .next (answered s 0x00 0 { s.toBlock with frmCfg := f }))

/-! The CRC engine. -/

/-- R92: with no byte after it `CRC_RESULT` is the checksum of the empty sequence, and a later `SETI` or `SETW`
does not reload `CRC_REG`. -/
def Obligations.CrcinitLoadsTheInitialValue : Prop :=
  decode 0x2000000000 = .instr .crcinit ∧
  ∀ s : State,
    exec .crcinit s =
      .next (answered s 0x00 0 { s.toBlock with crcReg := s.crcInit &&& mask s.crcWidth.toNat }) ∧
    ∀ t : State, exec .crcinit s = .next t →
      crcResult t.toBlock = (s.crcInit ^^^ s.crcXorout) &&& mask s.crcWidth.toNat ∧
      ∀ (v : BitVec 32) (w : BitVec 6) (u : State),
        exec (.seti v) t = .next u ∨ exec (.setw w) t = .next u → u.crcReg = t.crcReg

/-- R93: one byte step under the parameters of this moment. -/
def Obligations.CrcbFeedsOneByte : Prop :=
  ∀ (s : State) (b : BitVec 8),
    decode (0x21#8 ++ 0#24 ++ b) = .instr (.crcb b) ∧
    exec (.crcb b) s =
      .next (answered s 0x00 0 { s.toBlock with crcReg := crcStep s.crcWidth.toNat s.crcPoly s.crcReg b })

/-- R90, R91, bit by bit: `x` is any sequence of register values that starts with the byte XORed into bits 7:0 and
shifts `W` times as the rule says, `y` any sequence of register values that takes one byte step per byte. -/
def Obligations.CrcIsTheSpecsDivision : Prop :=
  ∀ (W : Nat) (P I X r : BitVec 32) (b : BitVec 8) (m : List Byte), W ∈ [8, 16, 24, 32] →
    (∀ x : Nat → BitVec 32,
      (∀ i, i < 32 → (x 0).getLsbD i = (r.getLsbD i ^^ b.getLsbD i)) →
      (∀ k i, k < W → i < 32 → (x (k + 1)).getLsbD i =
        (decide (i < W) && ((decide (0 < i) && (x k).getLsbD (i - 1)) ^^ ((x k).getLsbD (W - 1) && P.getLsbD i)))) →
      crcStep W P r b = x W) ∧
    (∀ y : Nat → BitVec 32,
      (∀ i, i < 32 → (y 0).getLsbD i = (decide (i < W) && I.getLsbD i)) →
      (∀ j byte, m[j]? = some byte → y (j + 1) = crcStep W P (y j) byte) →
      ∀ i, i < 32 → (crc W P I X m).getLsbD i = (decide (i < W) && ((y m.length).getLsbD i ^^ X.getLsbD i))) ∧
    (crc W P I X m).toNat < 2 ^ W

/-- R96: the CRC byte of a frame word, a function of the four parameter registers and the two bytes. -/
def Obligations.FcrcIsTheChecksumOfTwoBytes : Prop :=
  fcrc State.reset.toBlock 0xBE 0xEF = 0x92 ∧ fcrc State.reset.toBlock 0x36 0x08 = 0xD0 ∧
  ∀ (s : Block) (b0 b1 : BitVec 8), s.crcWidth = 8 →
    (fcrc s b0 b1).setWidth 32 = crc 8 s.crcPoly s.crcInit s.crcXorout [b0, b1]

/-- R17, R90, R91: the bits `W` and above of a step and of a checksum are zero. -/
def Obligations.CrcResultsStayBelowTheWidth : Prop :=
  ∀ (W : Nat) (P I X r : BitVec 32) (b : BitVec 8) (m : List Byte), W ∈ [8, 16, 24, 32] →
    (∀ i, W ≤ i → (crcStep W P r b).getLsbD i = false) ∧ (∀ i, W ≤ i → (crc W P I X m).getLsbD i = false)

/-- R94: the checksum of nothing, and only the low `W` bits of the parameters matter. -/
def Obligations.CrcUsesTheLowBitsOfItsParameters : Prop :=
  ∀ (W : Nat) (P I X : BitVec 32) (m : List Byte), W ∈ [8, 16, 24, 32] →
    crc W P I X [] = (I ^^^ X) &&& mask W ∧
    crc W P I X m = crc W (P &&& mask W) (I &&& mask W) (X &&& mask W) m

/-- R94: linearity over XOR of one step. -/
def Obligations.CrcStepIsLinear : Prop :=
  ∀ (W : Nat) (P r₁ r₂ : BitVec 32) (a b : BitVec 8), W ∈ [8, 16, 24, 32] →
    crcStep W P r₁ a ^^^ crcStep W P r₂ b = crcStep W P (r₁ ^^^ r₂) (a ^^^ b)

/-- R94: the zero polynomial. -/
def Obligations.CrcOfZeroPolynomial : Prop :=
  ∀ (W : Nat) (P I X : BitVec 32), W ∈ [8, 16, 24, 32] → P &&& mask W = 0 →
    (∀ (r : BitVec 32) (b : BitVec 8), crcStep W P r b = 0) ∧
    (∀ m : List Byte, m ≠ [] → crc W P I X m = X &&& mask W)

/-- R94: the residue of a message followed by its own checksum. -/
def Obligations.CrcOfMessageAndChecksumIsZero : Prop :=
  ∀ (P I X : BitVec 32) (m : List Byte), X &&& 0xFF = 0 →
    crc 8 P I X (m ++ [(crc 8 P I X m).setWidth 8]) = 0

/-- R93, the stream law, for the whole command sequence: from any state, `CRCINIT` and one `CRCB` a byte leave
`CRC_RESULT` at the checksum of the bytes, answer OK each time and change only `CRC_REG`. -/
def Obligations.StreamedCrcIsTheChecksum : Prop :=
  ∀ (s : State) (bytes : List Byte), ∃ r : BitVec 32,
    runAll (expand (.crcmsg bytes)) s =
      .next { s with crcReg := r, rsps := s.rsps ++ List.replicate (bytes.length + 1) 0 } ∧
    crcResult { s.toBlock with crcReg := r } =
      crc s.crcWidth.toNat s.crcPoly s.crcInit s.crcXorout bytes

/-! The encoder. -/

/-- R100: the words become unreadable, and on an empty command nothing changes. -/
def Obligations.TxclrEmptiesTheCommand : Prop :=
  decode 0x3000000000 = .instr .txclr ∧
  ∀ s : State,
    exec .txclr s = .next (answered s 0x00 0 { s.toBlock with txOpcp := 0, txOpc := 0, txNw := 0 }) ∧
    (s.txOpcp = 0 ∧ s.txOpc = 0 ∧ s.txNw = 0 → exec .txclr s = .next (answered s 0x00 0 s.toBlock)) ∧
    ∀ (t : State) (a : BitVec 16), exec .txclr s = .next t → a.toNat / 0x1000 = 1 → memRead t.toBlock a = none

/-- R101: a second `TXOPC` replaces the value. -/
def Obligations.TxopcGivesTheOpcode : Prop :=
  ∀ (s : State) (h : BitVec 16),
    decode (0x31#8 ++ 0#16 ++ h) = .instr (.txopc h) ∧
    exec (.txopc h) s = .next (answered s 0x00 0 { s.toBlock with txOpc := h, txOpcp := 1 })

/-- R102. -/
def Obligations.TxwAppendsOneWord : Prop :=
  ∀ (s : State) (h : BitVec 16),
    decode (0x32#8 ++ 0#16 ++ h) = .instr (.txw h) ∧
    (s.txNw.toNat = 16 →
      exec (.txw h) s = .next (answered s 0x04 0 { s.toBlock with errFlags := s.errFlags ||| 0x10 })) ∧
    (∀ room : s.txNw.toNat < 16,
      exec (.txw h) s = .next (answered s 0x00 0
        { s.toBlock with txw := s.txw.set s.txNw.toNat h, txNw := s.txNw + 1 }) ∧
      ∀ t : State, exec (.txw h) s = .next t →
        t.txNw.toNat = s.txNw.toNat + 1 ∧ txWords t.toBlock = txWords s.toBlock ++ [h])

/-- R103, the two outcomes without a frame: nothing to send, and the refusal, which withdraws the earlier frame. -/
def Obligations.EncAnswersNoWriteOrRefuses : Prop :=
  ∀ s : State,
    (s.txOpcp = 0 ∧ s.txNw = 0 →
      exec .enc s = .next (answered s 0x00 0 { s.toBlock with txLen := 0, txRes := 2 })) ∧
    ((s.txNw ≠ 0 ∧ s.crcWidth ≠ 8) ∨ (s.txOpcp = 1 ∧ s.frmCfg.getLsbD 1 = false ∧ 0xFF < s.txOpc.toNat) →
      exec .enc s = .next (answered s 0x05 0
        { s.toBlock with txLen := 0, txRes := 0, errFlags := s.errFlags ||| 0x20 }))

/-- R104 and the successful outcome of R103: the frame, byte for byte, its length, and nothing else changed. -/
def Obligations.EncWritesTheFrame : Prop :=
  ∀ (s : State) (o m : Nat),
    o = (if s.txOpcp = 0 then 0 else if s.frmCfg.getLsbD 1 then 2 else 1) → m = s.txNw.toNat → m ≤ 16 →
    (s.txOpcp = 1 ∨ 0 < m) → (0 < m → s.crcWidth = 8) →
    (s.txOpcp = 1 → s.frmCfg.getLsbD 1 = false → s.txOpc.toNat ≤ 0xFF) →
    ∃ buf : Vector Byte 50,
      exec .enc s = .next (answered s 0x00 0
        { s.toBlock with txBuf := buf, txLen := BitVec.ofNat 6 (o + 3 * m), txRes := 1 }) ∧
      (o = 2 → buf[0]? = some (s.txOpc.extractLsb' 8 8) ∧ buf[1]? = some (s.txOpc.extractLsb' 0 8)) ∧
      (o = 1 → buf[0]? = some (s.txOpc.extractLsb' 0 8)) ∧
      ∀ (i : Nat) (w : Word), i < m → s.txw[i]? = some w →
        let b0 : Byte := if s.frmCfg.getLsbD 2 then w.extractLsb' 0 8 else w.extractLsb' 8 8
        let b1 : Byte := if s.frmCfg.getLsbD 2 then w.extractLsb' 8 8 else w.extractLsb' 0 8
        buf[o + 3 * i]? = some b0 ∧ buf[o + 3 * i + 1]? = some b1 ∧
        buf[o + 3 * i + 2]? = some (fcrc s.toBlock b0 b1)

/-- R46: repeating `ENC`, or `DEC`, gives the same response and the same registers. -/
def Obligations.EncAndDecAreIdempotent : Prop :=
  ∀ (i : Instr) (s : State), i = .enc ∨ i = .dec →
    ∃ (t u : State) (r : RspWord),
      exec i s = .next t ∧ exec i t = .next u ∧ u.toBlock = t.toBlock ∧
      t.rsps = s.rsps ++ [r] ∧ u.rsps = t.rsps ++ [r]

/-! The decoder. -/

/-- R110: the received bytes become unreadable. -/
def Obligations.RxclrEmptiesTheReceivedBytes : Prop :=
  decode 0x4000000000 = .instr .rxclr ∧
  ∀ s : State,
    exec .rxclr s = .next (answered s 0x00 0 { s.toBlock with rxLen := 0 }) ∧
    ∀ (t : State) (a : BitVec 16), exec .rxclr s = .next t → a.toNat / 0x1000 = 3 → memRead t.toBlock a = none

/-- R111. -/
def Obligations.RxbAppendsOneByte : Prop :=
  ∀ (s : State) (b : BitVec 8),
    decode (0x41#8 ++ 0#24 ++ b) = .instr (.rxb b) ∧
    (s.rxLen.toNat = 48 →
      exec (.rxb b) s = .next (answered s 0x04 0 { s.toBlock with errFlags := s.errFlags ||| 0x10 })) ∧
    (∀ room : s.rxLen.toNat < 48,
      exec (.rxb b) s = .next (answered s 0x00 0
        { s.toBlock with rxBuf := s.rxBuf.set s.rxLen.toNat b, rxLen := s.rxLen + 1 }) ∧
      ∀ t : State, exec (.rxb b) s = .next t →
        t.rxLen.toNat = s.rxLen.toNat + 1 ∧ rxBytes t.toBlock = rxBytes s.toBlock ++ [b])

/-- R112 up to the blocks: no data, `E_CONFIG`, `E_LENGTH`, in the order of R135. -/
def Obligations.DecTestsDataConfigurationLength : Prop :=
  ∀ s : State,
    (s.rxLen = 0 → exec .dec s = .next (answered s 0x00 0 { s.toBlock with rxRes := 2, rxNw := 0 })) ∧
    (s.rxLen ≠ 0 ∧ s.frmCfg.getLsbD 0 = true ∧ s.crcWidth ≠ 8 →
      exec .dec s = .next (answered s 0x05 0
        { s.toBlock with rxNw := 0, rxRes := 3, errFlags := s.errFlags ||| 0x20 })) ∧
    (s.rxLen ≠ 0 ∧ (s.frmCfg.getLsbD 0 = true → s.crcWidth = 8) ∧
        s.rxLen.toNat % (if s.frmCfg.getLsbD 0 then 3 else 2) ≠ 0 →
      exec .dec s = .next (answered s 0x06 0
        { s.toBlock with rxNw := 0, rxRes := 3, errFlags := s.errFlags ||| 0x40 }))

/-- R112, R113 with the CRC check on: a buffer of good triples gives their words, in order. -/
def Obligations.DecGivesTheWordsOfGoodTriples : Prop :=
  ∀ (s : State) (blocks : List (Byte × Byte)),
    s.rxLen.toNat ≤ 48 → s.frmCfg.getLsbD 0 = true → s.crcWidth = 8 → blocks ≠ [] →
    rxBytes s.toBlock = blocks.flatMap (fun p => [p.1, p.2, fcrc s.toBlock p.1 p.2]) →
    ∃ ws : Vector Word 24,
      exec .dec s = .next (answered s 0x00 0
        { s.toBlock with rxw := ws, rxNw := BitVec.ofNat 5 blocks.length, rxRes := 1 }) ∧
      ws.toList.take blocks.length =
        blocks.map (fun p => if s.frmCfg.getLsbD 2 then p.2 ++ p.1 else p.1 ++ p.2)

/-- R112, R113 with the CRC check off: pairs, whatever the CRC width is. -/
def Obligations.DecGivesTheWordsOfPairs : Prop :=
  ∀ (s : State) (blocks : List (Byte × Byte)),
    s.rxLen.toNat ≤ 48 → s.frmCfg.getLsbD 0 = false → blocks ≠ [] →
    rxBytes s.toBlock = blocks.flatMap (fun p => [p.1, p.2]) →
    ∃ ws : Vector Word 24,
      exec .dec s = .next (answered s 0x00 0
        { s.toBlock with rxw := ws, rxNw := BitVec.ofNat 5 blocks.length, rxRes := 1 }) ∧
      ws.toList.take blocks.length =
        blocks.map (fun p => if s.frmCfg.getLsbD 2 then p.2 ++ p.1 else p.1 ++ p.2)

/-- R112, R136: the first block with a wrong CRC byte fails the whole decode; no word is visible, the received
bytes stay, the response carries the payload, and `ERR_INFO` takes it unless `ERR_FLAGS[7]` was set (R25). What
the unreadable elements of `RXW` hold is left open here. -/
def Obligations.DecReportsTheFirstWrongCrc : Prop :=
  ∀ (s : State) (good : List (Byte × Byte)) (b0 b1 rcv : Byte) (rest : List Byte),
    s.frmCfg.getLsbD 0 = true → s.crcWidth = 8 → s.rxLen.toNat % 3 = 0 →
    rxBytes s.toBlock =
      good.flatMap (fun p => [p.1, p.2, fcrc s.toBlock p.1 p.2]) ++ b0 :: b1 :: rcv :: rest →
    rcv ≠ fcrc s.toBlock b0 b1 →
    ∃ ws : Vector Word 24,
      exec .dec s = .next (answered s 0x07 (0#8 ++ BitVec.ofNat 8 good.length ++ fcrc s.toBlock b0 b1 ++ rcv)
        { s.toBlock with
          rxw := ws, rxNw := 0, rxRes := 3, errFlags := s.errFlags ||| 0x80,
          errInfo := if s.errFlags.getLsbD 7 then s.errInfo
            else BitVec.ofNat 8 good.length ++ fcrc s.toBlock b0 b1 ++ rcv })

/-- R41. -/
def Obligations.UnpackInvertsPack : Prop :=
  ∀ (wle : Bool) (w : Word),
    pack wle w = (if wle then (w.extractLsb' 0 8, w.extractLsb' 8 8) else (w.extractLsb' 8 8, w.extractLsb' 0 8)) ∧
    unpack wle (pack wle w).1 (pack wle w).2 = w ∧
    ∀ b0 b1 : Byte, (unpack false b0 b1).toNat = b0.toNat * 256 + b1.toNat ∧
      (unpack true b0 b1).toNat = b1.toNat * 256 + b0.toNat

/-! Round trips through whole command sequences. -/

/-- R114: encoding `m` words without opcode and decoding the frame's bytes gives the words back, every command
answering OK. -/
def Obligations.RoundTripGivesTheWordsBack : Prop :=
  ∀ (s : State) (words : List Word),
    words ≠ [] → words.length ≤ 16 → s.crcWidth = 8 → s.frmCfg.getLsbD 0 = true →
    ∃ t u : State,
      runAll (expand (.frameN words)) s = .next t ∧ t.txRes = 1 ∧ t.txLen.toNat = 3 * words.length ∧
      t.rsps = s.rsps ++ List.replicate (words.length + 2) 0 ∧
      runAll (expand (.parse (txBytes t.toBlock))) t = .next u ∧ u.rxRes = 1 ∧
      u.rxNw.toNat = words.length ∧ rxWords u.toBlock = words ∧
      u.rsps = t.rsps ++ List.replicate (3 * words.length + 2) 0

/-- R114, R105: with an opcode the same holds of the frame's bytes after the opcode. -/
def Obligations.RoundTripBehindAnOpcode : Prop :=
  ∀ (s : State) (opc : Word) (words : List Word) (o : Nat),
    words ≠ [] → words.length ≤ 16 → s.crcWidth = 8 → s.frmCfg.getLsbD 0 = true →
    o = (if s.frmCfg.getLsbD 1 then 2 else 1) → (s.frmCfg.getLsbD 1 = false → opc.toNat ≤ 0xFF) →
    ∃ t u : State,
      runAll (expand (.frameO opc words)) s = .next t ∧ t.txRes = 1 ∧
      t.txLen.toNat = o + 3 * words.length ∧
      (txBytes t.toBlock).take o =
        (if s.frmCfg.getLsbD 1 then [opc.extractLsb' 8 8, opc.extractLsb' 0 8] else [opc.extractLsb' 0 8]) ∧
      runAll (expand (.parse ((txBytes t.toBlock).drop o))) t = .next u ∧ u.rxRes = 1 ∧
      rxWords u.toBlock = words

/-- R114, C4: nothing to send is `NOWRITE` and nothing received is `NODATA`, not an empty word list. -/
def Obligations.EmptyRoundTripIsNoWriteAndNoData : Prop :=
  ∀ s : State, ∃ t u : State,
    runAll (expand (.frameN [])) s = .next t ∧ t.txRes = 2 ∧ txBytes t.toBlock = [] ∧
    runAll (expand (.parse [])) t = .next u ∧ u.rxRes = 2 ∧ u.rxNw = 0

/-- R114: replacing any single CRC byte of a valid response makes `DEC` fail with `E_CHECKSUM` carrying exactly
the received value, the correct value and the block's index. -/
def Obligations.CorruptedCrcByteIsReported : Prop :=
  ∀ (s : State) (before after : List (Byte × Byte)) (b0 b1 v : Byte),
    before.length + after.length < 16 → s.crcWidth = 8 → s.frmCfg.getLsbD 0 = true →
    v ≠ fcrc s.toBlock b0 b1 →
    let triples := fun l : List (Byte × Byte) => l.flatMap (fun p => [p.1, p.2, fcrc s.toBlock p.1 p.2])
    ∃ u : State,
      runAll (expand (.parse (triples before ++ [b0, b1, v] ++ triples after))) s = .next u ∧
      u.rxRes = 3 ∧ u.rxNw = 0 ∧
      u.rsps = s.rsps ++ List.replicate (3 * (before.length + after.length + 1) + 1) 0 ++
        [0x07#8 ++ 0#8 ++ BitVec.ofNat 8 before.length ++ fcrc s.toBlock b0 b1 ++ v]

/-- R68: `CRCCFG` sets the four parameters, `RDCRC` answers `CRC_RESULT` and `RDSTAT` answers `STATUS`. -/
def Obligations.ConfigurationAndReadPseudoInstructions : Prop :=
  ∀ (s : State) (w : BitVec 6) (p i x : BitVec 32),
    (w ∈ [(8 : BitVec 6), 16, 24, 32] →
      runAll (expand (.crccfg w p i x)) s =
        .next { s with
          crcWidth := w, crcPoly := p, crcInit := i, crcXorout := x, rsps := s.rsps ++ [0, 0, 0, 0] }) ∧
    runAll (expand .rdcrc) s = .next { s with rsps := s.rsps ++ [0#8 ++ crcResult s.toBlock] } ∧
    runAll (expand .rdstat) s = .next { s with rsps := s.rsps ++ [0#8 ++ status s.toBlock] }

/-! Rules of the whole machine. -/

/-- R133, R134: a command that fails sets its own flag, `ENC` and `DEC` withdraw their earlier result, and no other
register changes (but the unreadable elements of `RXW`). -/
def Obligations.FailuresArePrecise : Prop :=
  ∀ (i : Instr) (s t : State) (code : BitVec 8) (data : BitVec 32),
    exec i s = .next t → t.rsps = s.rsps ++ [code ++ data] → code ≠ 0 →
    code.toNat ≤ 7 ∧ t.moves = s.moves ∧
    t.toBlock = { s.toBlock with
      errFlags := s.errFlags ||| BitVec.twoPow 8 code.toNat
      errInfo := if code = 0x07 ∧ s.errFlags.getLsbD 7 = false then data.setWidth 24 else s.errInfo
      txLen := if i = .enc then 0 else s.txLen
      txRes := if i = .enc then 0 else s.txRes
      rxNw := if i = .dec then 0 else s.rxNw
      rxRes := if i = .dec then 3 else s.rxRes
      rxw := t.rxw } ∧
    (i ≠ .dec → t.rxw = s.rxw)

/-- R24, R137: a flag that was set is still set after every step but `ERRCLR`, `RESET` and `rst`. -/
def Obligations.ErrorFlagsAreSticky : Prop :=
  ∀ (s t : State) (j : Nat), step s = .next t → s.errFlags.getLsbD j = true → t.errFlags.getLsbD j = false →
    ∃ rest, (∃ p, s.moves = .rst p :: rest) ∨ s.moves = .command (encode .errclr) :: rest ∨
      s.moves = .command (encode .reset) :: rest

/-- R12 to R17, R45: the configuration and the CRC stream are written by their own commands and `RESET` only. -/
def Obligations.ConfigurationIsWrittenByItsCommands : Prop :=
  ∀ (i : Instr) (s t : State), exec i s = .next t → i ≠ .reset →
    (t.crcWidth ≠ s.crcWidth → ∃ w, i = .setw w) ∧ (t.crcPoly ≠ s.crcPoly → ∃ v, i = .setp v) ∧
    (t.crcInit ≠ s.crcInit → ∃ v, i = .seti v) ∧ (t.crcXorout ≠ s.crcXorout → ∃ v, i = .setx v) ∧
    (t.frmCfg ≠ s.frmCfg → ∃ f, i = .setf f) ∧ (t.crcReg ≠ s.crcReg → i = .crcinit ∨ ∃ b, i = .crcb b)

/-- R19 to R25, R154: results are snapshots. The command under construction, the received bytes, the last encode
result, the last decode result and the error payload are written by the commands that each rule names only. -/
def Obligations.ResultsAreSnapshots : Prop :=
  ∀ (i : Instr) (s t : State), exec i s = .next t → i ≠ .reset →
    (t.txOpcp ≠ s.txOpcp ∨ t.txOpc ≠ s.txOpc → i = .txclr ∨ ∃ h, i = .txopc h) ∧
    (t.txNw ≠ s.txNw → i = .txclr ∨ ∃ h, i = .txw h) ∧ (t.txw ≠ s.txw → ∃ h, i = .txw h) ∧
    (t.txRes ≠ s.txRes ∨ t.txLen ≠ s.txLen ∨ t.txBuf ≠ s.txBuf → i = .enc) ∧
    (t.rxLen ≠ s.rxLen → i = .rxclr ∨ ∃ b, i = .rxb b) ∧ (t.rxBuf ≠ s.rxBuf → ∃ b, i = .rxb b) ∧
    (t.rxRes ≠ s.rxRes ∨ t.rxNw ≠ s.rxNw ∨ t.rxw ≠ s.rxw → i = .dec) ∧
    (t.errInfo ≠ s.errInfo → i = .dec ∨ i = .errclr)

/-- R17, R157: framing neither reads nor writes `CRC_REG`: with any other content of it, `ENC` and `DEC` do the
same to everything else. -/
def Obligations.FramingIgnoresTheCrcStream : Prop :=
  ∀ (i : Instr) (s : State) (r : BitVec 32), i = .enc ∨ i = .dec →
    ∃ t : State, exec i s = .next t ∧ t.crcReg = s.crcReg ∧
      exec i { s with crcReg := r } = .next { t with crcReg := r }

/-- R29, R51: there is no hidden state. Two states that meet the invariant and agree on every register and every
valid element answer every command alike and agree again afterwards: no stale element is ever seen. -/
def Obligations.NoHiddenState : Prop :=
  ∀ (i : Instr) (s t : State), s.Inv → t.Inv → Block.SameVisible s.toBlock t.toBlock →
    ∃ (s' t' : State) (r : RspWord),
      exec i s = .next s' ∧ exec i t = .next t' ∧ Block.SameVisible s'.toBlock t'.toBlock ∧
      s'.rsps = s.rsps ++ [r] ∧ t'.rsps = t.rsps ++ [r]

/-- What the model keeps in elements nobody can read (its log entry 7, DESIGN CHOICE; the spec allows any content there): `ENC` changes
no element of `TXBUF` beyond its frame, and `DEC` no element of `RXW` beyond the blocks it was given. -/
def Obligations.ElementsBeyondAResultAreKept : Prop :=
  ∀ (s t : State) (j : Nat),
    (exec .enc s = .next t → t.txLen.toNat ≤ j → t.txRes = 1 → t.txBuf[j]? = s.txBuf[j]?) ∧
    (exec .dec s = .next t → s.rxLen.toNat / 2 ≤ j → t.rxw[j]? = s.rxw[j]?)
end

