-- ==== Sys2Proof/Laws/Arrays.lean ====
section
/-! SUPPORT. The array registers: what a write from an index on does to each element, and which list the valid
elements are after an append or a whole write (spec 20_memory R40, R45). -/

namespace Sys2Proof.Machine

open Sys2Proof

variable {w n : Nat}

@[simp] theorem writeFrom_nil (xs : Vector (BitVec w) n) (i : Nat) : writeFrom xs i [] = xs := rfl

theorem writeFrom_cons (xs : Vector (BitVec w) n) (i : Nat) (v : BitVec w) (vs : List (BitVec w)) :
    writeFrom xs i (v :: vs) = writeFrom (xs.setIfInBounds i v) (i + 1) vs := rfl

/-- Element `j` after writing `vs` from `i` on: the new value in the written range, the old one elsewhere. -/
theorem writeFrom_getElem? (vs : List (BitVec w)) :
    ∀ (xs : Vector (BitVec w) n) (i j : Nat),
      (writeFrom xs i vs)[j]? =
        if i ≤ j ∧ j < i + vs.length ∧ j < n then vs[j - i]? else xs[j]? := by
  induction vs with
  | nil => intro xs i j; simp; omega
  | cons v vs ih =>
    intro xs i j
    rw [writeFrom_cons, ih]
    simp only [List.length_cons, Vector.getElem?_setIfInBounds]
    by_cases hij : i = j
    · subst hij
      by_cases hn : i < n
      · simp [hn]
      · simp [hn]
    · by_cases h : i + 1 ≤ j ∧ j < i + 1 + vs.length ∧ j < n
      · have h' : i ≤ j ∧ j < i + (vs.length + 1) ∧ j < n := by omega
        rw [if_pos h, if_pos h', show j - i = (j - (i + 1)) + 1 by omega, List.getElem?_cons_succ]
      · have h' : ¬ (i ≤ j ∧ j < i + (vs.length + 1) ∧ j < n) := by omega
        rw [if_neg h, if_neg h', if_neg hij]

theorem validElems_getElem? (xs : Vector (BitVec w) n) (count j : Nat) :
    (validElems xs count)[j]? = if j < count then xs[j]? else none := by
  simp only [validElems, List.getElem?_take]
  split <;> simp

@[simp] theorem validElems_length (xs : Vector (BitVec w) n) (count : Nat) :
    (validElems xs count).length = min count n := by simp [validElems]

@[simp] theorem validElems_zero (xs : Vector (BitVec w) n) : validElems xs 0 = [] := rfl

/-- After a whole write that fits, the valid elements are what was written. -/
theorem validElems_writeFrom (xs : Vector (BitVec w) n) (vs : List (BitVec w)) (h : vs.length ≤ n) :
    validElems (writeFrom xs 0 vs) vs.length = vs := by
  apply List.ext_getElem?
  intro j
  rw [validElems_getElem?, writeFrom_getElem?]
  by_cases hj : j < vs.length
  · rw [if_pos hj, if_pos (by omega)]; simp
  · rw [if_neg hj, List.getElem?_eq_none (by omega)]

/-- After an append below the array's size, the valid elements are the old ones and the new one. -/
theorem validElems_append (xs : Vector (BitVec w) n) (count : Nat) (v : BitVec w) (h : count < n) :
    validElems (xs.setIfInBounds count v) (count + 1) = validElems xs count ++ [v] := by
  apply List.ext_getElem?
  intro j
  rw [validElems_getElem?, List.getElem?_append, validElems_getElem?, validElems_length,
    Vector.getElem?_setIfInBounds]
  rcases Nat.lt_trichotomy j count with hj | hj | hj
  · simp [show j < count + 1 by omega, show ¬ count = j by omega, hj, show j < n by omega]
  · subst hj; simp [h, show min j n = j by omega]
  · simp [show ¬ j < count + 1 by omega, show ¬ j < min count n by omega, show j - min count n ≠ 0 by omega]

/-- `RD` of an array element answers the valid element of that index (R44, R51). -/
theorem readElem_eq (xs : Vector (BitVec w) n) (count i : Nat) :
    readElem xs count i = (validElems xs count)[i]?.map fun v => v.setWidth 32 := by
  rw [validElems_getElem?]; unfold readElem; split <;> rfl

end Sys2Proof.Machine
end

