-- ==== Sys2Proof/Laws/Crc.lean ====
section
/-! SUPPORT. The bits of `mask(w)` and the recursion of the CRC functions (spec 00_scope R7, 41_crc R90, R91). -/

namespace Sys2Proof.Machine

open Sys2Proof

@[simp] theorem getLsbD_mask (w i : Nat) : (mask w).getLsbD i = (decide (i < 32) && decide (i < w)) := by
  simp only [mask, BitVec.getLsbD_ofNat, Nat.testBit_two_pow_sub_one]

@[simp] theorem getElem_mask (w i : Nat) (h : i < 32) : (mask w)[i] = decide (i < w) := by
  rw [← BitVec.getLsbD_eq_getElem, getLsbD_mask]; simp [h]

@[simp] theorem crcShifts_zero (W : Nat) (P r : Long) : crcShifts W P 0 r = r := rfl

theorem crcShifts_succ (W : Nat) (P : Long) (n : Nat) (r : Long) :
    crcShifts W P (n + 1) r = crcShifts W P n (crcShift W P r) := rfl

/-- The last pass instead of the first. -/
theorem crcShifts_succ' (W : Nat) (P : Long) (n : Nat) :
    ∀ r, crcShifts W P (n + 1) r = crcShift W P (crcShifts W P n r) := by
  induction n with
  | zero => intro r; rfl
  | succ n ih => intro r; rw [crcShifts_succ, ih, ← crcShifts_succ]

/-- `crc` as one fold over the bytes. -/
theorem crc_eq_foldl (W : Nat) (P I X : Long) (bytes : List Byte) :
    crc W P I X bytes = (bytes.foldl (crcStep W P) (I &&& mask W) ^^^ X) &&& mask W := rfl

end Sys2Proof.Machine
end

