-- ==== Sys2Proof/Laws/Decode.lean ====
section
/-! SUPPORT. The fields of a command word made of an operation code and an argument (spec 30_encoding R60), and when an
operand is read (R61). -/

namespace Sys2Proof

@[simp] theorem op_append (op : BitVec 8) (arg : BitVec 32) : CmdWord.op (op ++ arg) = op := by
  unfold CmdWord.op
  exact BitVec.extractLsb'_append_eq_left

@[simp] theorem arg_append (op : BitVec 8) (arg : BitVec 32) : CmdWord.arg (op ++ arg) = arg := by
  unfold CmdWord.arg
  exact BitVec.extractLsb'_append_eq_right

/-- A command word is its operation code and its argument. -/
theorem op_append_arg (c : CmdWord) : CmdWord.op c ++ CmdWord.arg c = c := by
  apply BitVec.eq_of_getLsbD_eq
  intro i hi
  simp only [CmdWord.op, CmdWord.arg, BitVec.getLsbD_append, BitVec.getLsbD_extractLsb']
  by_cases h : i < 32
  · simp [h]
  · simp [h, show i - 32 < 8 by omega, show 32 + (i - 32) = i by omega]

theorem noOperand_zero (i : Instr) : noOperand 0 i = .instr i := rfl

/-- An operand with zeros above it is read back. -/
theorem lowOperand_setWidth (n : Nat) (hn : n ≤ 32) (v : BitVec n) (mk : BitVec n → Instr) :
    lowOperand n (v.setWidth 32) mk = .instr (mk v) := by
  have h : (v.setWidth 32) >>> n = 0 := by
    apply BitVec.eq_of_getLsbD_eq; intro i hi; simp
  unfold lowOperand
  rw [if_pos h, BitVec.setWidth_setWidth_of_le _ hn, BitVec.setWidth_eq]

theorem noOperand_eq_instr {arg : BitVec 32} {i j : Instr} :
    noOperand arg i = .instr j ↔ arg = 0 ∧ i = j := by
  unfold noOperand; split <;> simp_all

theorem lowOperand_eq_instr {n : Nat} {arg : BitVec 32} {mk : BitVec n → Instr} {j : Instr} :
    lowOperand n arg mk = .instr j ↔ arg >>> n = 0 ∧ mk (arg.setWidth n) = j := by
  unfold lowOperand; split <;> simp_all

/-- An argument without bits above its low `n` is its low `n` bits with zeros above. -/
theorem setWidth_of_high_zero {n : Nat} {arg : BitVec 32} (h : arg >>> n = 0) :
    (arg.setWidth n).setWidth 32 = arg := by
  apply BitVec.eq_of_getLsbD_eq
  intro i hi
  simp only [BitVec.getLsbD_setWidth, hi, decide_true, Bool.true_and]
  by_cases hn : i < n
  · simp [hn]
  · have := congrArg (fun v => BitVec.getLsbD v (i - n)) h
    simp only [BitVec.getLsbD_ushiftRight, show n + (i - n) = i by omega] at this
    simp [hn, this]

end Sys2Proof
end

