-- ==== Sys2Proof/Laws/State.lean ====
section
/-! SUPPORT. What each shared update does to each part of the state. `toBlock` stands for all twenty registers of
R10: a register of an updated state is a projection of the `toBlock` given here. -/

namespace Sys2Proof.Machine

open Sys2Proof

@[simp] theorem respond_toBlock (code : BitVec 8) (data : Long) (s : State) :
    (respond code data s).toBlock = s.toBlock := rfl

@[simp] theorem respond_moves (code : BitVec 8) (data : Long) (s : State) :
    (respond code data s).moves = s.moves := rfl

@[simp] theorem respond_rsps (code : BitVec 8) (data : Long) (s : State) :
    (respond code data s).rsps = s.rsps ++ [code ++ data] := rfl

@[simp] theorem respondOk_toBlock (s : State) : (respondOk s).toBlock = s.toBlock := rfl

@[simp] theorem respondOk_moves (s : State) : (respondOk s).moves = s.moves := rfl

@[simp] theorem respondOk_rsps (s : State) : (respondOk s).rsps = s.rsps ++ [okCode ++ 0#32] := rfl

@[simp] theorem raise_toBlock (e : ErrCode) (info : Long) (s : State) :
    (raise e info s).toBlock = { s.toBlock with errFlags := setFlag s.errFlags e } := rfl

@[simp] theorem raise_moves (e : ErrCode) (info : Long) (s : State) : (raise e info s).moves = s.moves := rfl

@[simp] theorem raise_rsps (e : ErrCode) (info : Long) (s : State) :
    (raise e info s).rsps = s.rsps ++ [errCode e ++ info] := rfl

@[simp] theorem resetRegisters_toBlock (s : State) : (resetRegisters s).toBlock = Block.reset := rfl

@[simp] theorem resetRegisters_moves (s : State) : (resetRegisters s).moves = s.moves := rfl

@[simp] theorem resetRegisters_rsps (s : State) : (resetRegisters s).rsps = s.rsps := rfl

@[simp] theorem withdrawWords_toBlock (s : State) :
    (withdrawWords s).toBlock = { s.toBlock with rxNw := 0, rxRes := rxResFailed } := rfl

@[simp] theorem withdrawWords_moves (s : State) : (withdrawWords s).moves = s.moves := rfl

@[simp] theorem withdrawWords_rsps (s : State) : (withdrawWords s).rsps = s.rsps := rfl

/-- `ERR_INFO` is captured only when `ERR_FLAGS[7]` was 0 (R25). -/
@[simp] theorem captureInfo_toBlock (info : BitVec 24) (s : State) :
    (captureInfo info s).toBlock =
      { s.toBlock with errInfo := if flagSet s.errFlags .checksum then s.errInfo else info } := rfl

@[simp] theorem captureInfo_moves (info : BitVec 24) (s : State) : (captureInfo info s).moves = s.moves := rfl

@[simp] theorem captureInfo_rsps (info : BitVec 24) (s : State) : (captureInfo info s).rsps = s.rsps := rfl

@[simp] theorem answered_toBlock (s : State) (code : BitVec 8) (data : Long) (b : Block) :
    (answered s code data b).toBlock = b := rfl

@[simp] theorem answered_moves (s : State) (code : BitVec 8) (data : Long) (b : Block) :
    (answered s code data b).moves = s.moves := rfl

@[simp] theorem answered_rsps (s : State) (code : BitVec 8) (data : Long) (b : Block) :
    (answered s code data b).rsps = s.rsps ++ [code ++ data] := rfl

@[simp] theorem presentFirst_toBlock (c : CmdWord) (s : State) : (presentFirst c s).toBlock = s.toBlock := rfl

@[simp] theorem presentFirst_moves (c : CmdWord) (s : State) :
    (presentFirst c s).moves = .command c :: s.moves := rfl

@[simp] theorem presentFirst_rsps (c : CmdWord) (s : State) : (presentFirst c s).rsps = s.rsps := rfl

@[simp] theorem presentAll_toBlock (is : List Instr) (s : State) : (presentAll is s).toBlock = s.toBlock := rfl

@[simp] theorem presentAll_moves (is : List Instr) (s : State) :
    (presentAll is s).moves = is.map (fun i => HostMove.command (encode i)) ++ s.moves := rfl

@[simp] theorem presentAll_rsps (is : List Instr) (s : State) : (presentAll is s).rsps = s.rsps := rfl

/-- Two states with the same registers and ports are the same state. -/
theorem state_ext {s t : State} (hb : s.toBlock = t.toBlock) (hm : s.moves = t.moves) (hr : s.rsps = t.rsps) :
    s = t := by
  cases s; cases t; simp_all

/-- Responding is answering with the registers as they are. -/
theorem respond_eq_answered (code : BitVec 8) (data : Long) (s : State) :
    respond code data s = answered s code data s.toBlock := rfl

end Sys2Proof.Machine
end

