-- ==== Sys2Proof/Laws/Exec.lean ====
section
/-! SUPPORT. What each command that has more than one outcome can do, once: cite these, do not unfold the meanings. -/

namespace Sys2Proof.Machine

open Sys2Proof

theorem execRd_cases (a : BitVec 16) (s : State) :
    (∃ v, memRead s.toBlock a = some v ∧ execRd a s = .next (respond okCode v s)) ∨
    (memRead s.toBlock a = none ∧ execRd a s = .next (raise .addr 0 s)) := by
  unfold execRd; cases h : memRead s.toBlock a <;> simp

theorem execSetw_cases (w : BitVec 6) (s : State) :
    (w ∈ Config.legalWidths ∧ execSetw w s = .next (respondOk { s with crcWidth := w })) ∨
    (w ∉ Config.legalWidths ∧ execSetw w s = .next (raise .operand 0 s)) := by
  unfold execSetw; split <;> simp_all

theorem execTxw_cases (h : BitVec 16) (s : State) :
    (s.txNw.toNat = 16 ∧ execTxw h s = .next (raise .overflow 0 s)) ∨
    (s.txNw.toNat ≠ 16 ∧ execTxw h s =
      .next (respondOk { s with txw := s.txw.setIfInBounds s.txNw.toNat h, txNw := s.txNw + 1 })) := by
  unfold execTxw; split <;> simp_all

theorem execRxb_cases (b : BitVec 8) (s : State) :
    (s.rxLen.toNat = 48 ∧ execRxb b s = .next (raise .overflow 0 s)) ∨
    (s.rxLen.toNat ≠ 48 ∧ execRxb b s =
      .next (respondOk { s with rxBuf := s.rxBuf.setIfInBounds s.rxLen.toNat b, rxLen := s.rxLen + 1 })) := by
  unfold execRxb; split <;> simp_all

theorem execEnc_cases (s : State) :
    (nothingToSend s.toBlock = true ∧
      execEnc s = .next (respondOk { s with txLen := 0, txRes := txResNoWrite })) ∨
    (nothingToSend s.toBlock = false ∧ encRefused s.toBlock = true ∧
      execEnc s = .next (raise .config 0 { s with txLen := 0, txRes := txResNone })) ∨
    (nothingToSend s.toBlock = false ∧ encRefused s.toBlock = false ∧
      execEnc s = .next (respondOk { s with
        txBuf := writeFrom s.txBuf 0 (frameBytes s.toBlock)
        txLen := BitVec.ofNat 6 (frameBytes s.toBlock).length
        txRes := txResFrame })) := by
  unfold execEnc
  cases h : nothingToSend s.toBlock
  · cases h' : encRefused s.toBlock <;> simp
  · simp

theorem execDec_cases (s : State) :
    (s.rxLen = 0 ∧ execDec s = .next (respondOk { s with rxRes := rxResNoData, rxNw := 0 })) ∨
    (s.rxLen ≠ 0 ∧ rxCrcOn s.toBlock = true ∧ s.crcWidth ≠ 8 ∧
      execDec s = .next (raise .config 0 (withdrawWords s))) ∨
    (s.rxLen ≠ 0 ∧ ¬ (rxCrcOn s.toBlock = true ∧ s.crcWidth ≠ 8) ∧
      s.rxLen.toNat % blockSize s.toBlock ≠ 0 ∧
      execDec s = .next (raise .length 0 (withdrawWords s))) ∨
    (s.rxLen ≠ 0 ∧ ¬ (rxCrcOn s.toBlock = true ∧ s.crcWidth ≠ 8) ∧
      s.rxLen.toNat % blockSize s.toBlock = 0 ∧ ∃ info, (decodeBlocks s.toBlock).2 = some info ∧
      execDec s = .next (raise .checksum (info.setWidth 32) (captureInfo info (withdrawWords
        { s with rxw := writeFrom s.rxw 0 (decodeBlocks s.toBlock).1 })))) ∨
    (s.rxLen ≠ 0 ∧ ¬ (rxCrcOn s.toBlock = true ∧ s.crcWidth ≠ 8) ∧
      s.rxLen.toNat % blockSize s.toBlock = 0 ∧ (decodeBlocks s.toBlock).2 = none ∧
      execDec s = .next (respondOk { s with
        rxw := writeFrom s.rxw 0 (decodeBlocks s.toBlock).1
        rxNw := BitVec.ofNat 5 (s.rxLen.toNat / blockSize s.toBlock)
        rxRes := rxResWords })) := by
  unfold execDec
  by_cases h0 : s.rxLen = 0
  · exact .inl ⟨h0, if_pos h0⟩
  · by_cases h1 : rxCrcOn s.toBlock = true ∧ s.crcWidth ≠ 8
    · exact .inr (.inl ⟨h0, h1.1, h1.2, by rw [if_neg h0, if_pos h1]⟩)
    · by_cases h2 : s.rxLen.toNat % blockSize s.toBlock = 0
      · cases h3 : (decodeBlocks s.toBlock).2 with
        | some info =>
          refine .inr (.inr (.inr (.inl ⟨h0, h1, h2, info, rfl, ?_⟩)))
          rw [if_neg h0, if_neg h1, if_neg (by simpa using h2)]
        | none =>
          refine .inr (.inr (.inr (.inr ⟨h0, h1, h2, rfl, ?_⟩)))
          rw [if_neg h0, if_neg h1, if_neg (by simpa using h2)]
      · exact .inr (.inr (.inl ⟨h0, h1, h2, by rw [if_neg h0, if_neg h1, if_pos h2]⟩))

/-- Every command answers with exactly one response word, leaves the host's moves alone and never stops. -/
theorem exec_answered (i : Instr) (s : State) : ∃ code data b, exec i s = .next (answered s code data b) := by
  cases i <;> simp only [exec]
  case rd a => rcases execRd_cases a s with ⟨v, _, h⟩ | ⟨_, h⟩ <;> exact ⟨_, _, _, h⟩
  case setw w => rcases execSetw_cases w s with ⟨_, h⟩ | ⟨_, h⟩ <;> exact ⟨_, _, _, h⟩
  case txw v => rcases execTxw_cases v s with ⟨_, h⟩ | ⟨_, h⟩ <;> exact ⟨_, _, _, h⟩
  case rxb b => rcases execRxb_cases b s with ⟨_, h⟩ | ⟨_, h⟩ <;> exact ⟨_, _, _, h⟩
  case enc => rcases execEnc_cases s with ⟨_, h⟩ | ⟨_, _, h⟩ | ⟨_, _, h⟩ <;> exact ⟨_, _, _, h⟩
  case dec =>
    rcases execDec_cases s with
      ⟨_, h⟩ | ⟨_, _, _, h⟩ | ⟨_, _, _, h⟩ | ⟨_, _, _, _, _, h⟩ | ⟨_, _, _, _, h⟩ <;> exact ⟨_, _, _, h⟩
  all_goals exact ⟨_, _, _, rfl⟩

/-- What a step does with the host's next move (R150, R158, R160). -/
theorem step_idle {s : State} (h : s.moves = []) : step s = .next s := by
  simp [step, takeMove, h]

theorem step_rst {s : State} {p : Option CmdWord} {rest : List HostMove} (h : s.moves = .rst p :: rest) :
    step s = .next { resetRegisters s with moves := rest } := by
  simp [step, takeMove, h, takeReset, resetRegisters]

theorem step_illegal {s : State} {c : CmdWord} {rest : List HostMove} {why : Reject}
    (h : s.moves = .command c :: rest) (hd : decode c = .illegal why) :
    step s = .next (raise .illegal 0 { s with moves := rest }) := by
  simp [step, takeMove, h, takeCommand, hd]

end Sys2Proof.Machine
end

