-- ==== Sys2Proof/Laws/Flags.lean ====
section
/-! SUPPORT. The flags and the conditions of `ENC` in the spec's numbers (60_exceptions R130, 42_encode R103). -/

namespace Sys2Proof.Machine

open Sys2Proof

theorem setFlag_illegal (f : BitVec 8) : setFlag f .illegal = f ||| 0x02 := rfl
theorem setFlag_operand (f : BitVec 8) : setFlag f .operand = f ||| 0x04 := rfl
theorem setFlag_addr (f : BitVec 8) : setFlag f .addr = f ||| 0x08 := rfl
theorem setFlag_overflow (f : BitVec 8) : setFlag f .overflow = f ||| 0x10 := rfl
theorem setFlag_config (f : BitVec 8) : setFlag f .config = f ||| 0x20 := rfl
theorem setFlag_length (f : BitVec 8) : setFlag f .length = f ||| 0x40 := rfl
theorem setFlag_checksum (f : BitVec 8) : setFlag f .checksum = f ||| 0x80 := rfl

/-- Setting a flag keeps every flag that is set (R133). -/
theorem setFlag_keeps (f : BitVec 8) (e : ErrCode) (j : Nat) (h : f.getLsbD j = true) :
    (setFlag f e).getLsbD j = true := by
  simp [setFlag, BitVec.getLsbD_or, h]

/-- The flag just set is set (R133). -/
theorem flagSet_setFlag (f : BitVec 8) (e : ErrCode) : flagSet (setFlag f e) e = true := by
  cases e <;> simp [flagSet, setFlag, errNumber]

/-- Bit 0 of `ERR_FLAGS` belongs to no failure (R24). -/
theorem setFlag_bit_zero (f : BitVec 8) (e : ErrCode) : (setFlag f e).getLsbD 0 = f.getLsbD 0 := by
  cases e <;> simp [setFlag, errNumber, BitVec.getElem_twoPow]

theorem nothingToSend_iff (b : Block) : nothingToSend b = true ↔ b.txOpcp = 0 ∧ b.txNw = 0 := by
  simp [nothingToSend]

theorem encRefused_iff (b : Block) :
    encRefused b = true ↔
      (b.txNw ≠ 0 ∧ b.crcWidth ≠ 8) ∨ (b.txOpcp = 1 ∧ b.frmCfg.getLsbD 1 = false ∧ 0xFF < b.txOpc.toNat) := by
  simp only [encRefused, opc2On, Bool.or_eq_true, Bool.and_eq_true, bne_iff_ne, beq_iff_eq, Bool.not_eq_true',
    BitVec.ult_eq_decide, decide_eq_true_eq, and_assoc]
  rfl

/-- The frame's length: `o + 3m` (R104). -/
theorem frameBytes_length (b : Block) :
    (frameBytes b).length =
      (if b.txOpcp = 0 then 0 else if b.frmCfg.getLsbD 1 then 2 else 1) + 3 * min b.txNw.toNat 16 := by
  unfold frameBytes opcodeBytes opc2On
  simp only [wordTriple, txWords, List.length_append, List.length_flatMap, List.length_cons, List.length_nil,
    List.map_const', List.sum_replicate, validElems_length]
  split <;> [skip; split] <;> simp <;> omega

end Sys2Proof.Machine
end

