-- ==== Sys2Proof/Laws/Framing.lean ====
section
/-! SUPPORT. What the decoder's loop makes of blocks in order (spec 43_decode R112, R113). -/

namespace Sys2Proof.Machine

open Sys2Proof

/-- The triples of a list of byte pairs, each with its right CRC byte, as they lie in a response (R113). -/
def goodTriples (b : Block) (blocks : List (Byte × Byte)) : List Byte :=
  blocks.flatMap fun p => [p.1, p.2, fcrc b p.1 p.2]

@[simp] theorem goodTriples_nil (b : Block) : goodTriples b [] = [] := rfl

@[simp] theorem goodTriples_length (b : Block) (blocks : List (Byte × Byte)) :
    (goodTriples b blocks).length = 3 * blocks.length := by
  induction blocks with
  | nil => rfl
  | cons p l ih => simp only [goodTriples, List.flatMap_cons, List.length_append, List.length_cons] at ih ⊢
                   simp [ih]; omega

/-- Good triples are passed over, whatever follows: their words come first, and the block number moves on. -/
theorem decodeTriples_good (b : Block) (blocks : List (Byte × Byte)) :
    ∀ (k : Nat) (tail : List Byte),
      decodeTriples b k (goodTriples b blocks ++ tail) =
        (blocks.map (fun p => unpack (wleOn b) p.1 p.2) ++ (decodeTriples b (k + blocks.length) tail).1,
          (decodeTriples b (k + blocks.length) tail).2) := by
  induction blocks with
  | nil => intro k tail; simp
  | cons p l ih =>
    intro k tail
    have h : goodTriples b (p :: l) ++ tail = p.1 :: p.2 :: fcrc b p.1 p.2 :: (goodTriples b l ++ tail) := by
      simp [goodTriples]
    rw [h, decodeTriples, if_neg (by simp), ih]
    simp [show k + 1 + l.length = k + (l.length + 1) by omega]

/-- A wrong CRC byte ends the decode with its payload. -/
theorem decodeTriples_wrong (b : Block) (k : Nat) (b0 b1 rcv : Byte) (rest : List Byte) (h : rcv ≠ fcrc b b0 b1) :
    decodeTriples b k (b0 :: b1 :: rcv :: rest) = ([], some (checksumPayload k (fcrc b b0 b1) rcv)) := by
  rw [decodeTriples, if_pos h]

/-- Pairs, in order. -/
theorem decodePairs_pairs (b : Block) (blocks : List (Byte × Byte)) :
    decodePairs b (blocks.flatMap fun p => [p.1, p.2]) = blocks.map fun p => unpack (wleOn b) p.1 p.2 := by
  induction blocks with
  | nil => rfl
  | cons p l ih => simp [decodePairs, ih]

/-- A decode of triples gives at most one word a block, and exactly one when no CRC byte is wrong. -/
theorem decodeTriples_length (b : Block) (k : Nat) (l : List Byte) :
    (decodeTriples b k l).1.length ≤ l.length / 3 ∧
      ((decodeTriples b k l).2 = none → (decodeTriples b k l).1.length = l.length / 3) := by
  fun_induction decodeTriples b k l with
  | case1 => simp
  | case2 k b0 b1 rcv rest _ later ih =>
    change (later.1.length ≤ _ ∧ (later.2 = none → later.1.length = _)) at ih
    simp only [List.length_cons]
    exact ⟨by have := ih.1; omega, fun h => by have := ih.2 h; omega⟩
  | case3 l k h =>
    have hl : l.length < 3 := by
      match l, h with
      | [], _ | [_], _ | [_, _], _ => simp
      | b0 :: b1 :: rcv :: rest, h => exact (h b0 b1 rcv rest rfl).elim
    have h0 : l.length / 3 = 0 := by omega
    simp [h0]

/-- A decode of pairs gives one word a pair. -/
theorem decodePairs_length (b : Block) (l : List Byte) : (decodePairs b l).length = l.length / 2 := by
  fun_induction decodePairs b l with
  | case1 b0 b1 rest ih => simp only [List.length_cons, ih]; omega
  | case2 l h =>
    match l, h with
    | [], _ => simp
    | [_], _ => simp
    | b0 :: b1 :: rest, h => exact absurd rfl (h b0 b1 rest)

/-- Without a wrong CRC byte, `DEC` has one word for each whole block of the received bytes. -/
theorem decodeBlocks_length (b : Block) (h : (decodeBlocks b).2 = none) :
    (decodeBlocks b).1.length = (rxBytes b).length / blockSize b := by
  unfold decodeBlocks at h ⊢
  unfold blockSize
  cases hc : rxCrcOn b with
  | true => rw [hc] at h; exact (decodeTriples_length b 0 _).2 h
  | false => exact decodePairs_length b _

theorem rxBytes_length (b : Block) : (rxBytes b).length = min b.rxLen.toNat 48 := by simp [rxBytes]

end Sys2Proof.Machine
end

