-- ==== Sys2Proof/Laws/PerInstr.lean ====
section
/-! SUPPORT. Per command: its encoding selects its own row of the opcode map (spec 30_encoding R64). -/

namespace Sys2Proof.Laws.Row

open Sys2Proof

/-- The command's word selects the command's row. -/
def Statement (i : Instr) : Prop := (rowOf i).selects (encode i) = true

/-- A word `op ‖ arg` under a mask that keeps all of `op`: the row selects it when the masked argument is 0. -/
theorem selects_append (r : OpcodeRow) (op : BitVec 8) (arg m : BitVec 32)
    (hp : r.pattern = op ++ 0#32) (hm : r.mask = 0xFF#8 ++ m) (h : arg &&& m = 0) :
    r.selects (op ++ arg) = true := by
  have : (op ++ arg) &&& (0xFF#8 ++ m) = (op &&& 0xFF#8) ++ (arg &&& m) := BitVec.and_append
  unfold OpcodeRow.selects
  rw [hp, hm, this, h, show (0xFF#8) = BitVec.allOnes 8 from rfl, BitVec.and_allOnes]
  simp

/-- Zeros stand above an operand of `n` bits. -/
theorem operand_and_high (n : Nat) (v : BitVec n) (m : BitVec 32)
    (hm : ∀ i : Fin 32, i.val < n → m.getLsbD i.val = false) : v.setWidth 32 &&& m = 0 := by
  apply BitVec.eq_of_getLsbD_eq
  intro i hi
  simp only [BitVec.getLsbD_and, BitVec.getLsbD_setWidth]
  by_cases h : i < n
  · simp [hm ⟨i, hi⟩ h]
  · simp [BitVec.getLsbD_of_ge v i (by omega)]

theorem nop : Statement .nop := rfl
theorem reset : Statement .reset := rfl
theorem errclr : Statement .errclr := rfl
theorem rd (a : BitVec 16) : Statement (.rd a) :=
  selects_append _ 0x03 _ 0xFFFF0000 rfl rfl (operand_and_high _ a _ (by decide))
theorem setw (w : BitVec 6) : Statement (.setw w) :=
  selects_append _ 0x10 _ 0xFFFFFFC0 rfl rfl (operand_and_high _ w _ (by decide))
theorem setp (v : BitVec 32) : Statement (.setp v) :=
  selects_append _ 0x11 v 0 rfl rfl BitVec.and_zero
theorem seti (v : BitVec 32) : Statement (.seti v) :=
  selects_append _ 0x12 v 0 rfl rfl BitVec.and_zero
theorem setx (v : BitVec 32) : Statement (.setx v) :=
  selects_append _ 0x13 v 0 rfl rfl BitVec.and_zero
theorem setf (f : BitVec 3) : Statement (.setf f) :=
  selects_append _ 0x14 _ 0xFFFFFFF8 rfl rfl (operand_and_high _ f _ (by decide))
theorem crcinit : Statement .crcinit := rfl
theorem crcb (b : BitVec 8) : Statement (.crcb b) :=
  selects_append _ 0x21 _ 0xFFFFFF00 rfl rfl (operand_and_high _ b _ (by decide))
theorem txclr : Statement .txclr := rfl
theorem txopc (h : BitVec 16) : Statement (.txopc h) :=
  selects_append _ 0x31 _ 0xFFFF0000 rfl rfl (operand_and_high _ h _ (by decide))
theorem txw (h : BitVec 16) : Statement (.txw h) :=
  selects_append _ 0x32 _ 0xFFFF0000 rfl rfl (operand_and_high _ h _ (by decide))
theorem enc : Statement .enc := rfl
theorem rxclr : Statement .rxclr := rfl
theorem rxb (b : BitVec 8) : Statement (.rxb b) :=
  selects_append _ 0x41 _ 0xFFFFFF00 rfl rfl (operand_and_high _ b _ (by decide))
theorem dec : Statement .dec := rfl

end Sys2Proof.Laws.Row
end

