-- ==== Sys2Proof/Tests/Slice0.lean ====
section
/-! SUPPORT. Tests of single steps against the words and values of spec/ (95_test_vectors and the examples of the
rules), and for every statement with hypotheses a concrete state and operands that meet them. -/

namespace Sys2Proof.Tests

open Sys2Proof Sys2Proof.Machine
set_option maxRecDepth 20000

/-- The registers a command leaves, or `none` if it stops. -/
def regsAfter (o : Host.Outcome State Fault Refusal) : Option Block :=
  match o with
  | .next t => some t.toBlock
  | .fault _ => none
  | .refused _ => none

/-- The last response word, if there is one. -/
def lastRsp (o : Host.Outcome State Fault Refusal) : Option RspWord :=
  match o with
  | .next t => t.rsps.getLast?
  | .fault _ => none
  | .refused _ => none

/-- The reset state with received bytes. -/
def received (bytes : List Byte) : State :=
  { State.reset with rxBuf := writeFrom State.reset.rxBuf 0 bytes, rxLen := BitVec.ofNat 6 bytes.length }

/-- The reset state with a command under construction. -/
def building (opc : Option Word) (words : List Word) : State :=
  { State.reset with
    txOpcp := if opc.isSome then 1 else 0
    txOpc := opc.getD 0
    txw := writeFrom State.reset.txw 0 words
    txNw := BitVec.ofNat 5 words.length }

/-- The reset state with one host move to come. -/
def presented (c : CmdWord) : State := { State.reset with moves := [.command c] }

/-! Decoding: a word for every command, written bit by bit from the encodings of spec/opcode_table.json. -/

theorem test_decode_nop : decode 0b0000000000000000000000000000000000000000 = .instr .nop := by decide
theorem test_decode_reset : decode 0b0000000100000000000000000000000000000000 = .instr .reset := by decide
theorem test_decode_errclr : decode 0b0000001000000000000000000000000000000000 = .instr .errclr := by decide
theorem test_decode_rd : decode 0b0000001100000000000000001000000000000001 = .instr (.rd 0x8001) := by decide
theorem test_decode_setw : decode 0b0001000000000000000000000000000000100001 = .instr (.setw 33) := by decide
theorem test_decode_setp : decode 0b0001000110000000000000000001000000100001 = .instr (.setp 0x80001021) := by decide
theorem test_decode_seti : decode 0b0001001010000000000000001111111111111111 = .instr (.seti 0x8000FFFF) := by decide
theorem test_decode_setx : decode 0b0001001100000000000000000000000011111111 = .instr (.setx 0xFF) := by decide
theorem test_decode_setf : decode 0b0001010000000000000000000000000000000100 = .instr (.setf 0b100) := by decide
theorem test_decode_crcinit : decode 0b0010000000000000000000000000000000000000 = .instr .crcinit := by decide
theorem test_decode_crcb : decode 0b0010000100000000000000000000000010111110 = .instr (.crcb 0xBE) := by decide
theorem test_decode_txclr : decode 0b0011000000000000000000000000000000000000 = .instr .txclr := by decide
theorem test_decode_txopc : decode 0b0011000100000000000000000011011000001000 = .instr (.txopc 0x3608) := by decide
theorem test_decode_txw : decode 0b0011001000000000000000000000000111110100 = .instr (.txw 0x01F4) := by decide
theorem test_decode_enc : decode 0b0011001100000000000000000000000000000000 = .instr .enc := by decide
theorem test_decode_rxclr : decode 0b0100000000000000000000000000000000000000 = .instr .rxclr := by decide
theorem test_decode_rxb : decode 0b0100000100000000000000000000000010010010 = .instr (.rxb 0x92) := by decide
theorem test_decode_dec : decode 0b0100001000000000000000000000000000000000 = .instr .dec := by decide

/-- The illegal words of 95_test_vectors section 3.6. -/
theorem test_decode_unknown_op :
    [0x0500000000, 0xFF00000000, 0x0400000000, 0x1500000000, 0x2200000000, 0x3400000000, 0x4300000000].map decode =
      List.replicate 7 (.illegal .unknownOp) := by decide
theorem test_decode_reserved_bit :
    [0x0000000001, 0x3300000001, 0x0300010000, 0x1000000048, 0x1400000008, 0x2100000100, 0x4100000100,
      0x3100010000, 0x3200010000].map decode = List.replicate 9 (.illegal .reservedBit) := by decide

/-! WellFormed: an ill-formed word for each format and for an unknown operation code. -/

theorem test_wellFormed_accepts : wellFormedWord 0x11FFFFFFFF = true ∧ wellFormedWord 0x1000000030 = true := by decide
theorem test_wellFormed_refuses_op : wellFormedWord 0x0500000000 = false := by decide
theorem test_wellFormed_refuses_Z : wellFormedWord 0x3300000001 = false := by decide
theorem test_wellFormed_refuses_U3 : wellFormedWord 0x1400000008 = false := by decide
theorem test_wellFormed_refuses_U6 : wellFormedWord 0x1000000040 = false := by decide
theorem test_wellFormed_refuses_U8 : wellFormedWord 0x2100000100 = false ∧ wellFormedWord 0x4100000100 = false := by
  decide
theorem test_wellFormed_refuses_U16 : wellFormedWord 0x0300010000 = false ∧ wellFormedWord 0x3200010000 = false := by
  decide

/-! The port: the opcode table's words, decoded and run as the first command after reset. -/

theorem test_decodeTableWord : decodeTableWord 40 0x3200001234 = some (.txw 0x1234) := by decide
theorem test_withFetchWord_runs :
    (regsAfter (step (State.reset.withFetchWord 40 0x1100001021))).map Block.crcPoly = some 0x1021 := by decide
theorem test_step_idle : regsAfter (step State.reset) = some Block.reset := by decide
theorem test_step_rst :
    lastRsp (step { State.reset with crcPoly := 7, moves := [.rst (some 0)] }) = none := by decide
/-- K5: reserved bit of `SETW`. -/
theorem test_step_illegal : lastRsp (step (presented 0x1000000048)) = some 0x0100000000 := by decide

/-! System commands (95_test_vectors 3.5). -/

theorem test_nop : lastRsp (exec .nop State.reset) = some 0x0000000000 := by decide
theorem test_reset : regsAfter (exec .reset { State.reset with txNw := 3, errFlags := 4 }) = some Block.reset := by
  decide
theorem test_errclr :
    (regsAfter (exec .errclr { State.reset with errFlags := 0x80, errInfo := 0x014C4D, rxRes := 3 })).map status =
      some 0x0000000C := by decide
theorem test_rd_cap : lastRsp (exec (.rd 0x001F) State.reset) = some 0x0020323010 := by decide
theorem test_rd_empty : lastRsp (exec (.rd 0x1000) State.reset) = some 0x0300000000 := by decide

/-! Configuration commands (95_test_vectors 3.1). -/

theorem test_setw_16 : (regsAfter (exec (.setw 16) State.reset)).map Block.crcWidth = some 16 := by decide
theorem test_setw_12 : lastRsp (exec (.setw 12) State.reset) = some 0x0200000000 := by decide
theorem test_setp : (regsAfter (exec (.setp 0xFFFFFFFF) State.reset)).map Block.crcPoly = some 0xFFFFFFFF := by decide
theorem test_seti : (regsAfter (exec (.seti 0xFFFF) State.reset)).map Block.crcReg = some 0xFF := by decide
theorem test_setx : (regsAfter (exec (.setx 0xFF) State.reset)).map crcResult = some 0 := by decide
theorem test_setf :
    (regsAfter (exec (.setf 0b100) State.reset)).map (fun b => (wleOn b, opc2On b, rxCrcOn b)) =
      some (true, false, false) := by decide

/-! The CRC (95_test_vectors 2, 3.2; 41_crc section 4). -/

theorem test_crc_default : crc 8 0x31 0xFF 0 [0xBE, 0xEF] = 0x92 ∧ crc 8 0x31 0xFF 0 [0x36, 0x08] = 0xD0 := by decide
theorem test_crc_16 : crcStep 16 0x1021 0xFFFF 0x31 = 0x3B7D := by decide
theorem test_crc_24 : crcStep 24 0x864CFB 0 0x01 = 0x864CFB := by decide
theorem test_crc_32 : crc 32 0x04C11DB7 0xFFFFFFFF 0xFFFFFFFF [0x01] = 0x3C3A3F33 := by decide
theorem test_crcinit :
    (regsAfter (exec .crcinit { State.reset with crcReg := 0, crcInit := 0x1FF })).map Block.crcReg = some 0xFF := by
  decide
theorem test_crcb : (regsAfter (exec (.crcb 0xBE) State.reset)).map Block.crcReg = some 0x0C := by decide

/-! The encoder (95_test_vectors 3.3). -/

theorem test_txclr :
    (regsAfter (exec .txclr (building (some 0x1234) [5]))).map (fun b => (b.txOpcp, b.txNw)) = some (0, 0) := by decide
theorem test_txopc : (regsAfter (exec (.txopc 0) State.reset)).map status = some 0x10 := by decide
theorem test_txw : (regsAfter (exec (.txw 0x1234) (building none [5]))).map txWords = some [5, 0x1234] := by decide
theorem test_txw_full :
    lastRsp (exec (.txw 0) { State.reset with txNw := 16 }) = some 0x0400000000 := by decide
/-- E2. -/
theorem test_enc_frame :
    (regsAfter (exec .enc (building (some 0x1234) [0x3608]))).map txBytes =
      some [0x12, 0x34, 0x36, 0x08, 0xD0] := by decide
/-- E7: `WLE` swaps the word, not the opcode. -/
theorem test_enc_little_endian :
    (regsAfter (exec .enc { building (some 0x3608) [0x1234] with frmCfg := 0b111 })).map txBytes =
      some [0x36, 0x08, 0x34, 0x12, 0x91] := by decide

/-! The decoder (95_test_vectors 3.4). -/

theorem test_rxclr : (regsAfter (exec .rxclr (received [1, 2]))).map rxBytes = some [] := by decide
theorem test_rxb : (regsAfter (exec (.rxb 0x92) (received [0xBE, 0xEF]))).map rxBytes = some [0xBE, 0xEF, 0x92] := by
  decide
theorem test_rxb_full : lastRsp (exec (.rxb 0) { State.reset with rxLen := 48 }) = some 0x0400000000 := by decide
/-- D1. -/
theorem test_dec_words :
    (regsAfter (exec .dec (received [0x5E, 0x38, 0x77, 0x01, 0x90, 0x4C]))).map rxWords = some [0x5E38, 0x0190] := by
  decide
/-- D5. -/
theorem test_dec_checksum :
    lastRsp (exec .dec (received [0x5E, 0x38, 0x77, 0x01, 0x90, 0x4D])) = some 0x0700014C4D := by decide

/-! Pseudo-instructions and the assembler (30_encoding R67, R68; programs P2, P3 of 95_test_vectors). -/

theorem test_expand_frameO :
    (expand (.frameO 0x1234 [0x3608])).map encode = [0x3000000000, 0x3100001234, 0x3200003608, 0x3300000000] := by
  decide
theorem test_assemble :
    assemble ["TXCLR".toList, "TXOPC 0x1234 # opcode".toList, "".toList, "SETF 0b100".toList, "SETW 16".toList] =
      some [0x3000000000, 0x3100001234, 0x1400000004, 0x1000000010] := by decide
theorem test_assemble_refuses : assembleLine "CRCB 0x100".toList = .refused := by decide

/-! Witnesses: for each statement with hypotheses, inputs that meet all of them together, clause by clause. -/

theorem witness_EncodeOfDecodedIsTheWord : decode 0x030000FFFF = .instr (.rd 0xFFFF) := by decide
theorem witness_LegalWordsMatchExactlyTheirRow :
    rowOf .dec ∈ opcodeMap ∧ (rowOf .dec).selects 0x4200000000 = true := by decide
theorem witness_DecodeFollowsTheOperandFormats :
    ((0x42 : BitVec 8), Instr.dec) ∈ [((0x00 : BitVec 8), Instr.nop), (0x01, .reset), (0x02, .errclr),
      (0x20, .crcinit), (0x30, .txclr), (0x33, .enc), (0x40, .rxclr), (0x42, .dec)] ∧
    (0x43 : BitVec 8) ∉ [(0x00 : BitVec 8), 0x01, 0x02, 0x03, 0x10, 0x11, 0x12, 0x13, 0x14, 0x20, 0x21, 0x30,
      0x31, 0x32, 0x33, 0x40, 0x41, 0x42] := by decide
theorem witness_AssembledLinesAreLegalWords : assembleLine "RD 0x001F".toList = .word 0x030000001F := by decide
theorem witness_StepPerformsTheDecodedCommand :
    (presented 0x2000000000).moves = .command 0x2000000000 :: [] ∧ decode 0x2000000000 = .instr .crcinit := by decide
theorem witness_IllegalWordOnlySetsItsFlag :
    (presented 0x4300000000).moves = .command 0x4300000000 :: [] ∧ wellFormedWord 0x4300000000 = false := by decide
theorem witness_RstResetsAndAnswersNothing :
    ({ State.reset with moves := [.rst (some 0x0000000000)] } : State).moves = .rst (some 0x0000000000) :: [] ∧
    State.reset.moves = [] := by decide
theorem witness_EveryCommandWordGetsOneResponse :
    (presented 0xFFFFFFFFFF).moves = .command 0xFFFFFFFFFF :: [] := by decide
theorem witness_ResetLeavesTheResetValues :
    (regsAfter (exec .reset State.reset) = some State.reset.toBlock) ∧
    regsAfter (step { State.reset with moves := [.rst none] }) = some State.reset.toBlock := by decide
theorem witness_StepKeepsTheInvariant :
    (received [0xBE, 0xEF, 0x92]).Inv ∧
    step (received [0xBE, 0xEF, 0x92]) = .next (received [0xBE, 0xEF, 0x92]) := ⟨by decide, rfl⟩
theorem witness_ReachableStatesMeetTheInvariant :
    ∃ t : State, Host.Core.run Sys2Proof.core 1 { State.reset with moves := [.command 0x1000000020] } = .next t ∧
      t.crcWidth = 32 := ⟨_, rfl, rfl⟩
theorem witness_RdAnswersTheReadMap :
    memRead (received [7]).toBlock 0x3000 = some 7 ∧ memRead (received [7]).toBlock 0x3001 = none := by decide
theorem witness_ReadMapIsTheTable :
    15 < ({ State.reset with txNw := 16 } : State).txNw.toNat ∧
    49 < ({ State.reset with txLen := 50 } : State).txLen.toNat ∧
    47 < ({ State.reset with rxLen := 48 } : State).rxLen.toNat ∧
    23 < ({ State.reset with rxNw := 24 } : State).rxNw.toNat := by decide
theorem witness_ErrclrClearsTheErrorRecord :
    (State.reset.errFlags = 0 ∧ State.reset.errInfo = 0) ∧
    ∃ t : State, exec .errclr { State.reset with errFlags := 0x80 } = .next t ∧
      (0x80 : BitVec 8).getLsbD 7 = true ∧ t.errFlags.getLsbD 7 = false := ⟨by decide, _, rfl, by decide, by decide⟩
theorem witness_CrcinitLoadsTheInitialValue :
    ∃ t u : State, exec .crcinit State.reset = .next t ∧ exec (.setw 16) t = .next u := ⟨_, _, rfl, rfl⟩
theorem witness_TxclrEmptiesTheCommand :
    (State.reset.txOpcp = 0 ∧ State.reset.txOpc = 0 ∧ State.reset.txNw = 0) ∧
    ∃ t : State, exec .txclr (building none [1]) = .next t ∧ (0x1000 : BitVec 16).toNat / 0x1000 = 1 :=
  ⟨by decide, _, rfl, by decide⟩
theorem witness_RxclrEmptiesTheReceivedBytes :
    ∃ t : State, exec .rxclr (received [1]) = .next t ∧ (0x3FFF : BitVec 16).toNat / 0x1000 = 3 := ⟨_, rfl, by decide⟩
theorem witness_SetwTakesLegalWidthsOnly :
    ((32 : BitVec 6) = 8 ∨ (32 : BitVec 6) = 16 ∨ (32 : BitVec 6) = 24 ∨ (32 : BitVec 6) = 32) ∧
    ((33 : BitVec 6) ≠ 8 ∧ (33 : BitVec 6) ≠ 16 ∧ (33 : BitVec 6) ≠ 24 ∧ (33 : BitVec 6) ≠ 32) := by decide
/-- The register's values after each shift of the spec's worked step (41_crc section 4): 0xFF with byte 0xBE. -/
theorem witness_CrcIsTheSpecsDivision :
    let x : Nat → Long := fun k =>
      ([0x41, 0x82, 0x35, 0x6A, 0xD4, 0x99, 0x03, 0x06, 0x0C] : List Long).getD k 0
    (8 : Nat) ∈ [8, 16, 24, 32] ∧
    (∀ i, i < 32 → (x 0).getLsbD i = ((0xFF : Long).getLsbD i ^^ (0xBE : Byte).getLsbD i)) ∧
    (∀ k, k < 8 → ∀ i, i < 32 → (x (k + 1)).getLsbD i =
      (decide (i < 8) && ((decide (0 < i) && (x k).getLsbD (i - 1)) ^^
        ((x k).getLsbD 7 && (0x31 : Long).getLsbD i)))) ∧
    x 8 = crcStep 8 0x31 0xFF 0xBE := by decide
theorem witness_CrcIsTheSpecsDivision_crc :
    let y : Nat → Long := fun j => ([0xFF, 0x0C, 0x92] : List Long).getD j 0
    (∀ i, i < 32 → (y 0).getLsbD i = (decide (i < 8) && (0xFF : Long).getLsbD i)) ∧
    (∀ j, j < 2 → ([0xBE, 0xEF] : List Byte)[j]?.map (fun b => crcStep 8 0x31 (y j) b) = some (y (j + 1))) := by decide
theorem witness_FcrcIsTheChecksumOfTwoBytes : State.reset.crcWidth = 8 := by decide
theorem witness_CrcResultsStayBelowTheWidth : (32 : Nat) ∈ [8, 16, 24, 32] := by decide
theorem witness_CrcOfZeroPolynomial :
    (8 : Nat) ∈ [8, 16, 24, 32] ∧ (0xFFFFFF00 : Long) &&& mask 8 = 0 ∧ [(0x12 : Byte)] ≠ [] := by decide
theorem witness_CrcOfMessageAndChecksumIsZero : (0x100 : Long) &&& 0xFF = 0 := by decide
theorem witness_TxwAppendsOneWord :
    ({ State.reset with txNw := 16 } : State).txNw.toNat = 16 ∧
    ({ State.reset with txNw := 15 } : State).txNw.toNat < 16 := by decide
theorem witness_EncAnswersNoWriteOrRefuses :
    (State.reset.txOpcp = 0 ∧ State.reset.txNw = 0) ∧
    (({ building none [1] with crcWidth := 16 } : State).txNw ≠ 0 ∧
      ({ building none [1] with crcWidth := 16 } : State).crcWidth ≠ 8) ∧
    (({ building (some 0x100) [] with frmCfg := 1 } : State).txOpcp = 1 ∧
      ({ building (some 0x100) [] with frmCfg := 1 } : State).frmCfg.getLsbD 1 = false ∧
      0xFF < ({ building (some 0x100) [] with frmCfg := 1 } : State).txOpc.toNat) := by decide
theorem witness_EncWritesTheFrame :
    let s : State := { building (some 0xFF) (List.replicate 16 0x1234) with frmCfg := 1 }
    1 = (if s.txOpcp = 0 then 0 else if s.frmCfg.getLsbD 1 then 2 else 1) ∧ 16 = s.txNw.toNat ∧
    (s.txOpcp = 1 ∨ 0 < 16) ∧ (0 < 16 → s.crcWidth = 8) ∧
    (s.txOpcp = 1 → s.frmCfg.getLsbD 1 = false → s.txOpc.toNat ≤ 0xFF) ∧ s.txw[15]? = some 0x1234 := by decide
theorem witness_EncAndDecAreIdempotent : Instr.enc = .enc ∨ Instr.enc = .dec := by decide
theorem witness_RxbAppendsOneByte :
    ({ State.reset with rxLen := 48 } : State).rxLen.toNat = 48 ∧
    ({ State.reset with rxLen := 47 } : State).rxLen.toNat < 48 := by decide
theorem witness_DecTestsDataConfigurationLength :
    State.reset.rxLen = 0 ∧
    (let s : State := { received [1] with crcWidth := 16 }
     s.rxLen ≠ 0 ∧ s.frmCfg.getLsbD 0 = true ∧ s.crcWidth ≠ 8) ∧
    (let s : State := received [0xBE, 0xEF, 0x92, 0xBE]
     s.rxLen ≠ 0 ∧ (s.frmCfg.getLsbD 0 = true → s.crcWidth = 8) ∧
       s.rxLen.toNat % (if s.frmCfg.getLsbD 0 then 3 else 2) ≠ 0) := by decide
theorem witness_DecGivesTheWordsOfGoodTriples :
    let s := received [0xBE, 0xEF, 0x92, 0x00, 0x00, 0x81]
    s.rxLen.toNat ≤ 48 ∧ s.frmCfg.getLsbD 0 = true ∧ s.crcWidth = 8 ∧
    rxBytes s.toBlock = [((0xBE : Byte), (0xEF : Byte)), (0, 0)].flatMap
      (fun p => [p.1, p.2, fcrc s.toBlock p.1 p.2]) := by decide
theorem witness_DecGivesTheWordsOfPairs :
    let s : State := { received [0x34, 0x12, 0xCD, 0xAB] with frmCfg := 0b100 }
    s.rxLen.toNat ≤ 48 ∧ s.frmCfg.getLsbD 0 = false ∧
    rxBytes s.toBlock = [((0x34 : Byte), (0x12 : Byte)), (0xCD, 0xAB)].flatMap (fun p => [p.1, p.2]) := by decide
theorem witness_DecReportsTheFirstWrongCrc :
    let s := received [0xBE, 0xEF, 0x92, 0x00, 0x00, 0x82]
    s.frmCfg.getLsbD 0 = true ∧ s.crcWidth = 8 ∧ s.rxLen.toNat % 3 = 0 ∧
    rxBytes s.toBlock = [((0xBE : Byte), (0xEF : Byte))].flatMap (fun p => [p.1, p.2, fcrc s.toBlock p.1 p.2]) ++
      0 :: 0 :: 0x82 :: [] ∧ (0x82 : Byte) ≠ fcrc s.toBlock 0 0 := by decide
theorem witness_RoundTripGivesTheWordsBack :
    [(0xBEEF : Word)] ≠ [] ∧ [(0xBEEF : Word)].length ≤ 16 ∧ State.reset.crcWidth = 8 ∧
    State.reset.frmCfg.getLsbD 0 = true := by decide
theorem witness_RoundTripBehindAnOpcode :
    let s : State := { State.reset with frmCfg := 0b001 }
    s.crcWidth = 8 ∧ s.frmCfg.getLsbD 0 = true ∧ 1 = (if s.frmCfg.getLsbD 1 then 2 else 1) ∧
    (s.frmCfg.getLsbD 1 = false → (0xE1 : Word).toNat ≤ 0xFF) := by decide
theorem witness_CorruptedCrcByteIsReported :
    ([] : List (Byte × Byte)).length + ([] : List (Byte × Byte)).length < 16 ∧ State.reset.crcWidth = 8 ∧
    State.reset.frmCfg.getLsbD 0 = true ∧ (0x93 : Byte) ≠ fcrc State.reset.toBlock 0xBE 0xEF := by decide
theorem witness_ConfigurationAndReadPseudoInstructions : (24 : BitVec 6) ∈ [(8 : BitVec 6), 16, 24, 32] := by decide
theorem witness_FailuresArePrecise :
    ∃ t : State, exec (.setw 12) State.reset = .next t ∧ t.rsps = State.reset.rsps ++ [0x02#8 ++ 0#32] ∧
      (0x02#8) ≠ 0 ∧ Instr.setw 12 ≠ .dec := ⟨_, rfl, rfl, by decide, by decide⟩
theorem witness_ErrorFlagsAreSticky :
    ∃ t : State, step { State.reset with errFlags := 0x80, moves := [.command 0x0200000000] } = .next t ∧
      (0x80 : BitVec 8).getLsbD 7 = true ∧ t.errFlags.getLsbD 7 = false := ⟨_, rfl, by decide, by decide⟩
theorem witness_ConfigurationIsWrittenByItsCommands :
    ∃ t : State, exec (.setw 16) State.reset = .next t ∧ Instr.setw 16 ≠ .reset ∧ t.crcWidth ≠ State.reset.crcWidth :=
  ⟨_, rfl, by decide, by decide⟩
theorem witness_ResultsAreSnapshots :
    ∃ t : State, exec .enc (building none [0xBEEF]) = .next t ∧ Instr.enc ≠ .reset ∧
      t.txRes ≠ (building none [0xBEEF]).txRes := ⟨_, rfl, by decide, by decide⟩
theorem witness_FramingIgnoresTheCrcStream : Instr.dec = .enc ∨ Instr.dec = .dec := by decide
/-- Two states that differ in an element nobody can read. -/
theorem witness_NoHiddenState :
    let t : State := { State.reset with txBuf := writeFrom State.reset.txBuf 0 [0xFF] }
    State.reset.Inv ∧ t.Inv ∧ t ≠ State.reset ∧ Block.SameVisible State.reset.toBlock t.toBlock :=
  ⟨by decide, by decide, by decide, by constructor <;> rfl⟩
theorem witness_ElementsBeyondAResultAreKept :
    ∃ t u : State, exec .enc (building none [0xBEEF]) = .next t ∧ t.txLen.toNat ≤ 3 ∧ t.txRes = 1 ∧
      exec .dec (received [0xBE, 0xEF, 0x92]) = .next u ∧ (received [0xBE, 0xEF, 0x92]).rxLen.toNat / 2 ≤ 1 :=
  ⟨_, _, rfl, by decide, by decide, rfl, by decide⟩

end Sys2Proof.Tests
end

section
/-! The step on a legal command word (spec 00_scope R4, 20_memory R48): the case that `step_idle`, `step_rst` and
`step_illegal` leave. -/

namespace Sys2Proof.Machine

open Sys2Proof

theorem takeMove_command_of_decode {s : State} {c : CmdWord} {rest : List HostMove} {i : Instr}
    (h : s.moves = .command c :: rest) (hd : decode c = .instr i) :
    takeMove s = .perform i { s with moves := rest } := by
  simp [takeMove, h, takeCommand, hd]

theorem step_instr {s : State} {c : CmdWord} {rest : List HostMove} {i : Instr}
    (h : s.moves = .command c :: rest) (hd : decode c = .instr i) :
    step s = exec i { s with moves := rest } := by
  simp [step, takeMove_command_of_decode h hd]

/-- Settles O7: `step_instr` for every state and every presented word. -/
theorem stepPerformsTheDecodedCommand : Obligations.StepPerformsTheDecodedCommand :=
  fun _ _ _ _ h hd => step_instr h hd

end Sys2Proof.Machine
end

section
/-! What one command, and one step, can do to the registers, said once (spec 60_exceptions R133, R137;
70_reset_and_hazards R150, R158): every statement about a single run cites these inversions. -/

namespace Sys2Proof.Machine

open Sys2Proof

/-- `Effect b i c`: command `i` on the registers `b` can leave the registers `c`. -/
inductive Effect (b : Block) : Instr → Block → Prop
  | nop : Effect b .nop b
  | reset : Effect b .reset Block.reset
  | errclr : Effect b .errclr { b with errFlags := 0, errInfo := 0 }
  | rd (a : BitVec 16) (v : Long) : memRead b a = some v → Effect b (.rd a) b
  | rdEmpty (a : BitVec 16) : memRead b a = none →
      Effect b (.rd a) { b with errFlags := setFlag b.errFlags .addr }
  | setw (w : BitVec 6) : w ∈ Config.legalWidths → Effect b (.setw w) { b with crcWidth := w }
  | setwIllegal (w : BitVec 6) : w ∉ Config.legalWidths →
      Effect b (.setw w) { b with errFlags := setFlag b.errFlags .operand }
  | setp (v : BitVec 32) : Effect b (.setp v) { b with crcPoly := v }
  | seti (v : BitVec 32) : Effect b (.seti v) { b with crcInit := v }
  | setx (v : BitVec 32) : Effect b (.setx v) { b with crcXorout := v }
  | setf (f : BitVec 3) : Effect b (.setf f) { b with frmCfg := f }
  | crcinit : Effect b .crcinit { b with crcReg := b.crcInit &&& mask (widthOf b) }
  | crcb (d : BitVec 8) : Effect b (.crcb d) { b with crcReg := crcStep (widthOf b) b.crcPoly b.crcReg d }
  | txclr : Effect b .txclr { b with txOpcp := 0, txOpc := 0, txNw := 0 }
  | txopc (h : BitVec 16) : Effect b (.txopc h) { b with txOpc := h, txOpcp := 1 }
  | txw (h : BitVec 16) : b.txNw.toNat ≠ 16 →
      Effect b (.txw h) { b with txw := b.txw.setIfInBounds b.txNw.toNat h, txNw := b.txNw + 1 }
  | txwFull (h : BitVec 16) : b.txNw.toNat = 16 →
      Effect b (.txw h) { b with errFlags := setFlag b.errFlags .overflow }
  | encNoWrite : nothingToSend b = true → Effect b .enc { b with txLen := 0, txRes := txResNoWrite }
  | encRefused : nothingToSend b = false → encRefused b = true →
      Effect b .enc { b with txLen := 0, txRes := txResNone, errFlags := setFlag b.errFlags .config }
  | encFrame : nothingToSend b = false → encRefused b = false →
      Effect b .enc { b with
        txBuf := writeFrom b.txBuf 0 (frameBytes b)
        txLen := BitVec.ofNat 6 (frameBytes b).length
        txRes := txResFrame }
  | rxclr : Effect b .rxclr { b with rxLen := 0 }
  | rxb (d : BitVec 8) : b.rxLen.toNat ≠ 48 →
      Effect b (.rxb d) { b with rxBuf := b.rxBuf.setIfInBounds b.rxLen.toNat d, rxLen := b.rxLen + 1 }
  | rxbFull (d : BitVec 8) : b.rxLen.toNat = 48 →
      Effect b (.rxb d) { b with errFlags := setFlag b.errFlags .overflow }
  | decNoData : b.rxLen = 0 → Effect b .dec { b with rxRes := rxResNoData, rxNw := 0 }
  | decFailed (e : ErrCode) (ws : Vector Word Config.rxwMax) (info : BitVec 24) :
      b.rxLen ≠ 0 → e = .checksum ∨ info = b.errInfo →
      Effect b .dec { b with
        rxw := ws, rxNw := 0, rxRes := rxResFailed, errFlags := setFlag b.errFlags e, errInfo := info }
  | decWords : b.rxLen ≠ 0 → b.rxLen.toNat % blockSize b = 0 → (decodeBlocks b).2 = none →
      Effect b .dec { b with
        rxw := writeFrom b.rxw 0 (decodeBlocks b).1
        rxNw := BitVec.ofNat 5 (b.rxLen.toNat / blockSize b)
        rxRes := rxResWords }

/-- Every command completes, with one of its effects. -/
theorem exec_has_effect (i : Instr) (s : State) : ∃ t, exec i s = .next t ∧ Effect s.toBlock i t.toBlock := by
  cases i
  case rd a =>
    obtain ⟨v, hv, h⟩ | ⟨hv, h⟩ := execRd_cases a s
    · exact ⟨_, h, .rd a v hv⟩
    · exact ⟨_, h, .rdEmpty a hv⟩
  case setw w =>
    obtain ⟨hw, h⟩ | ⟨hw, h⟩ := execSetw_cases w s
    · exact ⟨_, h, .setw w hw⟩
    · exact ⟨_, h, .setwIllegal w hw⟩
  case txw v =>
    obtain ⟨hn, h⟩ | ⟨hn, h⟩ := execTxw_cases v s
    · exact ⟨_, h, .txwFull v hn⟩
    · exact ⟨_, h, .txw v hn⟩
  case rxb d =>
    obtain ⟨hn, h⟩ | ⟨hn, h⟩ := execRxb_cases d s
    · exact ⟨_, h, .rxbFull d hn⟩
    · exact ⟨_, h, .rxb d hn⟩
  case enc =>
    obtain ⟨hn, h⟩ | ⟨hn, hr, h⟩ | ⟨hn, hr, h⟩ := execEnc_cases s
    · exact ⟨_, h, .encNoWrite hn⟩
    · exact ⟨_, h, .encRefused hn hr⟩
    · exact ⟨_, h, .encFrame hn hr⟩
  case dec =>
    obtain ⟨h0, h⟩ | ⟨h0, _, _, h⟩ | ⟨h0, _, _, h⟩ | ⟨h0, _, _, info, _, h⟩ | ⟨h0, _, hm, hd, h⟩ := execDec_cases s
    · exact ⟨_, h, .decNoData h0⟩
    · exact ⟨_, h, .decFailed .config s.rxw s.errInfo h0 (.inr rfl)⟩
    · exact ⟨_, h, .decFailed .length s.rxw s.errInfo h0 (.inr rfl)⟩
    · exact ⟨_, h, .decFailed .checksum _ _ h0 (.inl rfl)⟩
    · exact ⟨_, h, .decWords h0 hm hd⟩
  all_goals exact ⟨_, rfl, by constructor⟩

theorem exec_effect {i : Instr} {s t : State} (h : exec i s = .next t) : Effect s.toBlock i t.toBlock := by
  obtain ⟨u, hu, heff⟩ := exec_has_effect i s
  obtain rfl : u = t := Host.Outcome.next.inj (hu.symm.trans h)
  exact heff

/-- What a step can do: idle, reset the block, refuse an illegal word, or perform a command. -/
theorem step_cases {s t : State} (h : step s = .next t) :
    (s.moves = [] ∧ t = s) ∨
    (∃ p rest, s.moves = .rst p :: rest ∧ t.toBlock = Block.reset) ∨
    (∃ c rest why, s.moves = .command c :: rest ∧ decode c = .illegal why ∧
      t.toBlock = { s.toBlock with errFlags := setFlag s.errFlags .illegal }) ∨
    (∃ c rest i, s.moves = .command c :: rest ∧ decode c = .instr i ∧ Effect s.toBlock i t.toBlock) := by
  match hm : s.moves with
  | [] => exact .inl ⟨rfl, Host.Outcome.next.inj (h.symm.trans (step_idle hm))⟩
  | .rst p :: rest =>
    obtain rfl := Host.Outcome.next.inj (h.symm.trans (step_rst hm))
    exact .inr (.inl ⟨p, rest, rfl, rfl⟩)
  | .command c :: rest =>
    cases hd : decode c with
    | illegal why =>
      obtain rfl := Host.Outcome.next.inj (h.symm.trans (step_illegal hm hd))
      exact .inr (.inr (.inl ⟨c, rest, why, rfl, hd, rfl⟩))
    | instr i =>
      have heff := exec_effect ((step_instr hm hd).symm.trans h)
      exact .inr (.inr (.inr ⟨c, rest, i, rfl, hd, heff⟩))

/-- What every step of a machine keeps holds all along its runs. -/
theorem run_keeps {M : Host.Core} {P : M.State → Prop} (hstep : ∀ s t, P s → M.step s = .next t → P t) (n : Nat) :
    ∀ s t, P s → M.run n s = .next t → P t := by
  induction n with
  | zero => intro s t hs hrun; exact Host.Outcome.next.inj hrun ▸ hs
  | succ n ih =>
    intro s t hs hrun
    cases hu : M.step s with
    | next u => rw [Host.Core.run, hu] at hrun; exact ih u t (hstep s u hs hu) hrun
    | fault r => rw [Host.Core.run, hu] at hrun; cases hrun
    | refused r => rw [Host.Core.run, hu] at hrun; cases hrun

end Sys2Proof.Machine
end

section
/-! The invariant of R28: the reset state meets it, and every step keeps it. -/

namespace Sys2Proof.Machine

open Sys2Proof

/-- The clauses of `Block.Inv` by name. -/
structure Block.Clauses (b : Block) : Prop where
  width : b.crcWidth ∈ Config.legalWidths
  txNw : b.txNw.toNat ≤ 16
  txLen : b.txLen.toNat ≤ 50
  rxLen : b.rxLen.toNat ≤ 48
  rxNw : b.rxNw.toNat ≤ 24
  txOpc : b.txOpcp = 0 → b.txOpc = 0
  txRes : b.txRes ≠ 3
  frame : b.txRes = txResFrame → 1 ≤ b.txLen.toNat
  noFrame : b.txRes = txResNone ∨ b.txRes = txResNoWrite → b.txLen = 0
  words : b.rxRes = rxResWords → 1 ≤ b.rxNw.toNat
  noWords : b.rxRes = rxResNone ∨ b.rxRes = rxResNoData ∨ b.rxRes = rxResFailed → b.rxNw = 0
  flagZero : b.errFlags.getLsbD 0 = false
  errInfo : b.errInfo ≠ 0 → flagSet b.errFlags .checksum = true

theorem Block.inv_iff_clauses (b : Block) : b.Inv ↔ b.Clauses :=
  ⟨fun ⟨h1, h2, h3, h4, h5, h6, h7, h8, h9, h10, h11, h12, h13⟩ =>
    ⟨h1, h2, h3, h4, h5, h6, h7, h8, h9, h10, h11, h12, h13⟩,
   fun ⟨h1, h2, h3, h4, h5, h6, h7, h8, h9, h10, h11, h12, h13⟩ =>
    ⟨h1, h2, h3, h4, h5, h6, h7, h8, h9, h10, h11, h12, h13⟩⟩

/-- A count below its bound takes one more without wrapping. -/
theorem toNat_add_one_le {w n : Nat} {x : BitVec w} (hn : n < 2 ^ w) (hle : x.toNat ≤ n) (hne : x.toNat ≠ n) :
    (x + 1).toNat = x.toNat + 1 ∧ x.toNat + 1 ≤ n := by
  have hw : 1 < 2 ^ w := by omega
  have hlt : x.toNat + 1 < 2 ^ w := by omega
  refine ⟨?_, by omega⟩
  rw [BitVec.toNat_add, show (1 : BitVec w).toNat = 1 from Nat.mod_eq_of_lt hw, Nat.mod_eq_of_lt hlt]

theorem frameBytes_length_le (b : Block) : (frameBytes b).length ≤ 50 := by
  rw [frameBytes_length]; split <;> [skip; split] <;> omega

theorem frameBytes_length_pos {b : Block} (h : nothingToSend b = false) : 1 ≤ (frameBytes b).length := by
  rw [frameBytes_length]
  by_cases hp : b.txOpcp = 0
  · have hn : b.txNw ≠ 0 := fun hn => by simp [(nothingToSend_iff b).2 ⟨hp, hn⟩] at h
    have : b.txNw.toNat ≠ 0 := fun h0 => hn (BitVec.eq_of_toNat_eq h0)
    omega
  · rw [if_neg hp]; split <;> omega

/-- `TX_LEN` holds the frame's whole length. -/
theorem toNat_frameBytes_length (b : Block) :
    (BitVec.ofNat 6 (frameBytes b).length).toNat = (frameBytes b).length :=
  Nat.mod_eq_of_lt (by have := frameBytes_length_le b; omega)

theorem blockSize_eq (b : Block) : blockSize b = 2 ∨ blockSize b = 3 := by
  unfold blockSize; split <;> simp

/-- A received buffer holds at most 24 blocks (R23). -/
theorem blocks_le {b : Block} (h : b.rxLen.toNat ≤ 48) : b.rxLen.toNat / blockSize b ≤ 24 := by
  obtain hb | hb := blockSize_eq b <;> rw [hb] <;> omega

theorem blocks_pos {b : Block} (h : b.rxLen ≠ 0) (hm : b.rxLen.toNat % blockSize b = 0) :
    1 ≤ b.rxLen.toNat / blockSize b := by
  have : b.rxLen.toNat ≠ 0 := fun h0 => h (BitVec.eq_of_toNat_eq h0)
  obtain hb | hb := blockSize_eq b <;> rw [hb] at hm ⊢ <;> omega

/-- `RX_NW` holds the whole number of blocks. -/
theorem toNat_blocks {b : Block} (h : b.rxLen.toNat ≤ 48) :
    (BitVec.ofNat 5 (b.rxLen.toNat / blockSize b)).toNat = b.rxLen.toNat / blockSize b :=
  Nat.mod_eq_of_lt (by have := blocks_le h; omega)

/-- Setting a flag of R130 keeps the invariant. -/
theorem Block.Clauses.setFlag {b : Block} (h : b.Clauses) (e : ErrCode) :
    { b with errFlags := Machine.setFlag b.errFlags e }.Clauses :=
  { h with
    flagZero := (setFlag_bit_zero _ e).trans h.flagZero
    errInfo := fun hi => setFlag_keeps _ e _ (h.errInfo hi) }

theorem Block.reset_clauses : Block.reset.Clauses := Block.reset.inv_iff_clauses.1 (by decide)

/-- Every command keeps the invariant. -/
theorem Effect.clauses {b c : Block} {i : Instr} (heff : Effect b i c) (h : b.Clauses) : c.Clauses := by
  cases heff with
  | nop | rd => exact h
  | reset => exact Block.reset_clauses
  | errclr => exact { h with flagZero := by simp, errInfo := fun hi => absurd rfl hi }
  | rdEmpty | setwIllegal | txwFull | rxbFull => exact h.setFlag _
  | setw w hw => exact { h with width := hw }
  | setp | seti | setx | setf | crcinit | crcb => exact { h with }
  | txclr => exact { h with txNw := Nat.zero_le _, txOpc := fun _ => rfl }
  | txopc => exact { h with txOpc := by simp }
  | txw _ hn =>
    obtain ⟨hadd, hle⟩ := toNat_add_one_le (by decide) h.txNw hn
    exact { h with txNw := hadd.trans_le hle }
  | encNoWrite =>
    exact { h with
      txLen := Nat.zero_le _, txRes := by simp, frame := by simp, noFrame := fun _ => rfl }
  | encRefused =>
    exact { h.setFlag .config with
      txLen := Nat.zero_le _, txRes := by simp, frame := by simp, noFrame := fun _ => rfl }
  | encFrame hn =>
    have hlen := toNat_frameBytes_length b
    exact { h with
      txLen := hlen.trans_le (frameBytes_length_le b)
      txRes := by simp
      frame := fun _ => (frameBytes_length_pos hn).trans_eq hlen.symm
      noFrame := by simp }
  | rxclr => exact { h with rxLen := Nat.zero_le _ }
  | rxb _ hn =>
    obtain ⟨hadd, hle⟩ := toNat_add_one_le (by decide) h.rxLen hn
    exact { h with rxLen := hadd.trans_le hle }
  | decNoData => exact { h with rxNw := Nat.zero_le _, words := by simp, noWords := fun _ => rfl }
  | decFailed e ws info _ hinfo =>
    exact { h.setFlag e with
      rxNw := Nat.zero_le _
      words := by simp
      noWords := fun _ => rfl
      errInfo := fun hi => by
        obtain rfl | rfl := hinfo
        · exact flagSet_setFlag _ _
        · exact (h.setFlag e).errInfo hi }
  | decWords h0 hm =>
    have hnw := toNat_blocks h.rxLen
    exact { h with
      rxNw := hnw.trans_le (blocks_le h.rxLen)
      words := fun _ => (blocks_pos h0 hm).trans_eq hnw.symm
      noWords := by simp }

/-- Settles O13: the clauses of R28 evaluated on the reset values. -/
theorem resetMeetsTheInvariant : Obligations.ResetMeetsTheInvariant := by
  unfold Obligations.ResetMeetsTheInvariant
  decide

/-- Settles O14: by the four kinds of step, a performed command by its effect. -/
theorem stepKeepsTheInvariant : Obligations.StepKeepsTheInvariant := by
  intro s t hs hstep
  rw [Block.inv_iff_clauses] at hs ⊢
  obtain ⟨_, rfl⟩ | ⟨_, _, _, ht⟩ | ⟨_, _, _, _, _, ht⟩ | ⟨_, _, _, _, _, heff⟩ := step_cases hstep
  · exact hs
  · exact ht ▸ Block.reset_clauses
  · exact ht ▸ hs.setFlag .illegal
  · exact heff.clauses hs

/-- Settles O15: the invariant holds at reset, whatever moves are to come, and every step keeps it. -/
theorem reachableStatesMeetTheInvariant : Obligations.ReachableStatesMeetTheInvariant := by
  intro ms n t hrun
  exact run_keeps (M := Sys2Proof.core) (P := fun s => Block.Inv (State.toBlock s)) stepKeepsTheInvariant n
    { State.reset with moves := ms } t resetMeetsTheInvariant hrun

end Sys2Proof.Machine
end

section
/-! What `ENC` and `DEC` read (spec 70_reset_and_hazards R157): registers that agree on it give the same frame and
the same words. -/

namespace Sys2Proof.Machine

open Sys2Proof

/-- The two blocks agree on all that `ENC` and `DEC` read: the parameters, the configuration, the command under
construction and the received bytes. -/
structure Block.SameFraming (b c : Block) : Prop where
  crcWidth : b.crcWidth = c.crcWidth
  crcPoly : b.crcPoly = c.crcPoly
  crcInit : b.crcInit = c.crcInit
  crcXorout : b.crcXorout = c.crcXorout
  frmCfg : b.frmCfg = c.frmCfg
  txOpcp : b.txOpcp = c.txOpcp
  txOpc : b.txOpc = c.txOpc
  txNw : b.txNw = c.txNw
  txWords : txWords b = txWords c
  rxLen : b.rxLen = c.rxLen
  rxBytes : rxBytes b = rxBytes c

namespace Block.SameFraming

variable {b c : Block} (h : b.SameFraming c)
include h

theorem fcrc : Machine.fcrc b = Machine.fcrc c := by
  funext b0 b1
  simp only [Machine.fcrc, widthOf, h.crcWidth, h.crcPoly, h.crcInit, h.crcXorout]

theorem wleOn : Machine.wleOn b = Machine.wleOn c := congrArg (·.getLsbD 2) h.frmCfg

theorem rxCrcOn : Machine.rxCrcOn b = Machine.rxCrcOn c := congrArg (·.getLsbD 0) h.frmCfg

theorem nothingToSend : Machine.nothingToSend b = Machine.nothingToSend c := by
  simp only [Machine.nothingToSend, h.txOpcp, h.txNw]

theorem encRefused : Machine.encRefused b = Machine.encRefused c := by
  simp only [Machine.encRefused, opc2On, h.txOpcp, h.txOpc, h.txNw, h.crcWidth, h.frmCfg]

theorem frameBytes : Machine.frameBytes b = Machine.frameBytes c := by
  have hopc : opcodeBytes b = opcodeBytes c := by
    rw [opcodeBytes, opcodeBytes, opc2On, opc2On, h.txOpcp, h.txOpc, h.frmCfg]
  have htriple : wordTriple b = wordTriple c := by funext w; simp only [wordTriple, h.wleOn, h.fcrc]
  simp only [Machine.frameBytes, hopc, htriple, h.txWords]

theorem blockSize : Machine.blockSize b = Machine.blockSize c := by simp only [Machine.blockSize, h.rxCrcOn]

theorem decodeTriples (k : Nat) (l : List Byte) : Machine.decodeTriples b k l = Machine.decodeTriples c k l := by
  fun_induction Machine.decodeTriples b k l with
  | case1 k b0 b1 rcv rest hne => rw [decodeTriples_wrong c k b0 b1 rcv rest (h.fcrc ▸ hne), h.fcrc]
  | case2 k b0 b1 rcv rest hne later ih =>
    rw [Machine.decodeTriples, if_neg (h.fcrc ▸ hne), ← ih, h.wleOn]
  | case3 l k hl => rw [Machine.decodeTriples]; exact hl

theorem decodePairs (l : List Byte) : Machine.decodePairs b l = Machine.decodePairs c l := by
  fun_induction Machine.decodePairs b l with
  | case1 b0 b1 rest ih => rw [Machine.decodePairs, ih, h.wleOn]
  | case2 l hl => rw [Machine.decodePairs]; exact hl

theorem decodeBlocks : Machine.decodeBlocks b = Machine.decodeBlocks c := by
  simp only [Machine.decodeBlocks, h.rxCrcOn, h.rxBytes, h.decodeTriples, h.decodePairs]

end Block.SameFraming

/-- `CRC_REG` is not among what `ENC` and `DEC` read (R157). -/
theorem Block.sameFraming_crcReg (b : Block) (r : Long) : b.SameFraming { b with crcReg := r } := by
  constructor <;> rfl

/-! One equation for each outcome of `ENC`, `DEC` and `RD`. -/

variable {s : State}

theorem execEnc_noWrite (h : nothingToSend s.toBlock = true) :
    execEnc s = .next (respondOk { s with txLen := 0, txRes := txResNoWrite }) := if_pos h

theorem execEnc_refused (h : nothingToSend s.toBlock = false) (hr : encRefused s.toBlock = true) :
    execEnc s = .next (raise .config 0 { s with txLen := 0, txRes := txResNone }) := by
  simp [execEnc, h, hr]

theorem execEnc_frame (h : nothingToSend s.toBlock = false) (hr : encRefused s.toBlock = false) :
    execEnc s = .next (respondOk { s with
      txBuf := writeFrom s.txBuf 0 (frameBytes s.toBlock)
      txLen := BitVec.ofNat 6 (frameBytes s.toBlock).length
      txRes := txResFrame }) := by
  simp [execEnc, h, hr]

theorem execDec_noData (h : s.rxLen = 0) :
    execDec s = .next (respondOk { s with rxRes := rxResNoData, rxNw := 0 }) := if_pos h

theorem execDec_config (h : s.rxLen ≠ 0) (hc : rxCrcOn s.toBlock = true) (hw : s.crcWidth ≠ 8) :
    execDec s = .next (raise .config 0 (withdrawWords s)) := by
  rw [execDec, if_neg h, if_pos ⟨hc, hw⟩]

theorem execDec_length (h : s.rxLen ≠ 0) (hc : ¬ (rxCrcOn s.toBlock = true ∧ s.crcWidth ≠ 8))
    (hm : s.rxLen.toNat % blockSize s.toBlock ≠ 0) :
    execDec s = .next (raise .length 0 (withdrawWords s)) := by
  rw [execDec, if_neg h, if_neg hc, if_pos hm]

theorem execDec_checksum {info : BitVec 24} (h : s.rxLen ≠ 0) (hc : ¬ (rxCrcOn s.toBlock = true ∧ s.crcWidth ≠ 8))
    (hm : s.rxLen.toNat % blockSize s.toBlock = 0) (hd : (decodeBlocks s.toBlock).2 = some info) :
    execDec s = .next (raise .checksum (info.setWidth 32) (captureInfo info (withdrawWords
      { s with rxw := writeFrom s.rxw 0 (decodeBlocks s.toBlock).1 }))) := by
  rw [execDec, if_neg h, if_neg hc, if_neg (not_not.2 hm)]
  simp only [hd]

theorem execDec_words (h : s.rxLen ≠ 0) (hc : ¬ (rxCrcOn s.toBlock = true ∧ s.crcWidth ≠ 8))
    (hm : s.rxLen.toNat % blockSize s.toBlock = 0) (hd : (decodeBlocks s.toBlock).2 = none) :
    execDec s = .next (respondOk { s with
      rxw := writeFrom s.rxw 0 (decodeBlocks s.toBlock).1
      rxNw := BitVec.ofNat 5 (s.rxLen.toNat / blockSize s.toBlock)
      rxRes := rxResWords }) := by
  rw [execDec, if_neg h, if_neg hc, if_neg (not_not.2 hm)]
  simp only [hd]

theorem execRd_some {a : BitVec 16} {v : Long} (h : memRead s.toBlock a = some v) :
    execRd a s = .next (respond okCode v s) := by simp [execRd, h]

theorem execRd_none {a : BitVec 16} (h : memRead s.toBlock a = none) : execRd a s = .next (raise .addr 0 s) := by
  simp [execRd, h]

/-- `ENC` with another content of `CRC_REG` does the same to everything else. -/
theorem execEnc_crcReg (s : State) (r : Long) :
    ∃ t : State, execEnc s = .next t ∧ t.crcReg = s.crcReg ∧
      execEnc { s with crcReg := r } = .next { t with crcReg := r } := by
  obtain ⟨hn, h⟩ | ⟨hn, hr, h⟩ | ⟨hn, hr, h⟩ := execEnc_cases s
  · exact ⟨_, h, rfl, execEnc_noWrite (s := { s with crcReg := r }) hn⟩
  · exact ⟨_, h, rfl, execEnc_refused (s := { s with crcReg := r }) hn hr⟩
  · exact ⟨_, h, rfl, execEnc_frame (s := { s with crcReg := r }) hn hr⟩

/-- `DEC` with another content of `CRC_REG` does the same to everything else. -/
theorem execDec_crcReg (s : State) (r : Long) :
    ∃ t : State, execDec s = .next t ∧ t.crcReg = s.crcReg ∧
      execDec { s with crcReg := r } = .next { t with crcReg := r } := by
  have hdec := (s.toBlock.sameFraming_crcReg r).decodeBlocks
  obtain ⟨h0, h⟩ | ⟨h0, hc, hw, h⟩ | ⟨h0, hc, hm, h⟩ | ⟨h0, hc, hm, info, hd, h⟩ | ⟨h0, hc, hm, hd, h⟩ :=
    execDec_cases s
  · exact ⟨_, h, rfl, execDec_noData (s := { s with crcReg := r }) h0⟩
  · exact ⟨_, h, rfl, execDec_config (s := { s with crcReg := r }) h0 hc hw⟩
  · exact ⟨_, h, rfl, execDec_length (s := { s with crcReg := r }) h0 hc hm⟩
  · rw [hdec] at hd h
    exact ⟨_, h, rfl, execDec_checksum (s := { s with crcReg := r }) h0 hc hm hd⟩
  · rw [hdec] at hd h
    exact ⟨_, h, rfl, execDec_words (s := { s with crcReg := r }) h0 hc hm hd⟩

/-- Settles O56: `execEnc_crcReg` and `execDec_crcReg`. -/
theorem framingIgnoresTheCrcStream : Obligations.FramingIgnoresTheCrcStream := by
  rintro i s r (rfl | rfl)
  · exact execEnc_crcReg s r
  · exact execDec_crcReg s r

end Sys2Proof.Machine
end

section
/-! No hidden state (spec 10_state R29, 20_memory R51): what a command answers, and what it leaves visible, depends
on the registers and the readable elements only. -/

namespace Sys2Proof.Machine

open Sys2Proof

/-- Two arrays that agree below their common count still do after the same append. -/
theorem validElems_append_congr {w k n : Nat} {xs ys : Vector (BitVec w) n} {x y : BitVec k} (hn : n < 2 ^ k)
    (hle : x.toNat ≤ n) (hne : x.toNat ≠ n) (hxy : x = y) (h : validElems xs x.toNat = validElems ys y.toNat)
    (v : BitVec w) :
    validElems (xs.setIfInBounds x.toNat v) (x + 1).toNat = validElems (ys.setIfInBounds y.toNat v) (y + 1).toNat := by
  subst hxy
  obtain ⟨hadd, hlt⟩ := toNat_add_one_le hn hle hne
  rw [hadd, validElems_append _ _ _ hlt, validElems_append _ _ _ hlt, h]

/-- The frame just written is what can be read of `TXBUF`. -/
theorem validElems_frame (b : Block) (xs : Vector Byte Config.txbMax) :
    validElems (writeFrom xs 0 (frameBytes b)) (BitVec.ofNat 6 (frameBytes b).length).toNat = frameBytes b := by
  rw [toNat_frameBytes_length, validElems_writeFrom _ _ (frameBytes_length_le b)]

/-- The words just decoded are what can be read of `RXW`. -/
theorem validElems_decoded {b : Block} (hle : b.rxLen.toNat ≤ 48) (hd : (decodeBlocks b).2 = none)
    (xs : Vector Word Config.rxwMax) :
    validElems (writeFrom xs 0 (decodeBlocks b).1) (BitVec.ofNat 5 (b.rxLen.toNat / blockSize b)).toNat =
      (decodeBlocks b).1 := by
  have hlen : (decodeBlocks b).1.length = b.rxLen.toNat / blockSize b := by
    rw [decodeBlocks_length b hd, rxBytes_length, min_eq_left hle]
  rw [toNat_blocks hle, ← hlen, validElems_writeFrom _ _ (hlen.trans_le (blocks_le hle))]

namespace Block.SameVisible

variable {b c : Block}

theorem sameFraming (h : b.SameVisible c) : b.SameFraming c := { h with }

theorem refl (b : Block) : b.SameVisible b := by constructor <;> rfl

theorem status (h : b.SameVisible c) : Machine.status b = Machine.status c := by
  simp only [Machine.status, errOut, h.errFlags, h.txOpcp, h.rxRes, h.txRes]

theorem crcResult (h : b.SameVisible c) : Machine.crcResult b = Machine.crcResult c := by
  simp only [Machine.crcResult, widthOf, h.crcReg, h.crcXorout, h.crcWidth]

theorem registerMap (h : b.SameVisible c) : Machine.registerMap b = Machine.registerMap c := by
  simp only [Machine.registerMap, h.status, h.crcResult, h.crcWidth, h.crcPoly, h.crcInit, h.crcXorout, h.frmCfg,
    h.crcReg, h.errFlags, h.errInfo, h.txOpc, h.txNw, h.txLen, h.rxLen, h.rxNw]

/-- `RD` reads the same at every address. -/
theorem memRead (h : b.SameVisible c) (a : BitVec 16) : Machine.memRead b a = Machine.memRead c a := by
  have htx := h.txWords
  have hbuf := h.txBytes
  have hrx := h.rxBytes
  have hrw := h.rxWords
  simp only [Machine.txWords, Machine.txBytes, Machine.rxBytes, Machine.rxWords] at htx hbuf hrx hrw
  simp only [Machine.memRead, readElem_eq, h.registerMap, htx, hbuf, hrx, hrw]

/-- Setting a flag in both keeps the agreement. -/
theorem setFlag (h : b.SameVisible c) (e : ErrCode) :
    { b with errFlags := Machine.setFlag b.errFlags e }.SameVisible
      { c with errFlags := Machine.setFlag c.errFlags e } :=
  { h with errFlags := congrArg (Machine.setFlag · e) h.errFlags }

/-- A failing `DEC` in both keeps the agreement, whatever it left in `RXW`. -/
theorem decFailed (h : b.SameVisible c) (e : ErrCode) (xs ys : Vector Word Config.rxwMax) {info info' : BitVec 24}
    (hinfo : info = info') :
    { b with rxw := xs, rxNw := 0, rxRes := rxResFailed, errFlags := Machine.setFlag b.errFlags e, errInfo := info
      }.SameVisible
    { c with rxw := ys, rxNw := 0, rxRes := rxResFailed, errFlags := Machine.setFlag c.errFlags e, errInfo := info' } :=
  { h with
    rxRes := rfl, rxNw := rfl, rxWords := rfl
    errFlags := congrArg (Machine.setFlag · e) h.errFlags
    errInfo := hinfo }

end Block.SameVisible

/-- Command `i` completes in both states, with the same response word, and leaves registers that agree on all that
can be read. -/
def AnswersAlike (i : Instr) (s t : State) : Prop :=
  ∃ (s' t' : State) (r : RspWord),
    exec i s = .next s' ∧ exec i t = .next t' ∧ Block.SameVisible s'.toBlock t'.toBlock ∧
    s'.rsps = s.rsps ++ [r] ∧ t'.rsps = t.rsps ++ [r]

section

variable {s t : State} (h : s.toBlock.SameVisible t.toBlock)
include h

theorem rd_answersAlike (a : BitVec 16) : AnswersAlike (.rd a) s t := by
  obtain ⟨v, hv, hs⟩ | ⟨hv, hs⟩ := execRd_cases a s <;> rw [h.memRead] at hv
  · exact ⟨_, _, _, hs, execRd_some hv, h, rfl, rfl⟩
  · exact ⟨_, _, _, hs, execRd_none hv, h.setFlag _, rfl, rfl⟩

theorem setw_answersAlike (w : BitVec 6) : AnswersAlike (.setw w) s t := by
  by_cases hw : w ∈ Config.legalWidths
  · exact ⟨_, _, _, if_pos hw, if_pos hw, { h with crcWidth := rfl }, rfl, rfl⟩
  · exact ⟨_, _, _, if_neg hw, if_neg hw, h.setFlag _, rfl, rfl⟩

theorem crcinit_answersAlike : AnswersAlike .crcinit s t := by
  have hreg : s.crcInit &&& mask (widthOf s.toBlock) = t.crcInit &&& mask (widthOf t.toBlock) := by
    simp only [widthOf, h.crcInit, h.crcWidth]
  exact ⟨_, _, _, rfl, rfl, { h with crcReg := hreg }, rfl, rfl⟩

theorem crcb_answersAlike (d : BitVec 8) : AnswersAlike (.crcb d) s t := by
  have hreg : crcStep (widthOf s.toBlock) s.crcPoly s.crcReg d =
      crcStep (widthOf t.toBlock) t.crcPoly t.crcReg d := by
    simp only [widthOf, h.crcPoly, h.crcReg, h.crcWidth]
  exact ⟨_, _, _, rfl, rfl, { h with crcReg := hreg }, rfl, rfl⟩

theorem txw_answersAlike (hle : s.txNw.toNat ≤ 16) (v : BitVec 16) : AnswersAlike (.txw v) s t := by
  by_cases hfull : s.txNw.toNat = 16
  · exact ⟨_, _, _, if_pos hfull, if_pos (h.txNw ▸ hfull), h.setFlag _, rfl, rfl⟩
  · have hnw : s.txNw + 1 = t.txNw + 1 := congrArg (· + 1) h.txNw
    have hwords := validElems_append_congr (by decide) hle hfull h.txNw h.txWords v
    exact ⟨_, _, _, if_neg hfull, if_neg (h.txNw ▸ hfull), { h with txNw := hnw, txWords := hwords }, rfl, rfl⟩

theorem rxb_answersAlike (hle : s.rxLen.toNat ≤ 48) (d : BitVec 8) : AnswersAlike (.rxb d) s t := by
  by_cases hfull : s.rxLen.toNat = 48
  · exact ⟨_, _, _, if_pos hfull, if_pos (h.rxLen ▸ hfull), h.setFlag _, rfl, rfl⟩
  · have hlen : s.rxLen + 1 = t.rxLen + 1 := congrArg (· + 1) h.rxLen
    have hbytes := validElems_append_congr (by decide) hle hfull h.rxLen h.rxBytes d
    exact ⟨_, _, _, if_neg hfull, if_neg (h.rxLen ▸ hfull), { h with rxLen := hlen, rxBytes := hbytes }, rfl, rfl⟩

theorem enc_answersAlike : AnswersAlike .enc s t := by
  have hfr := h.sameFraming
  obtain ⟨hn, hs⟩ | ⟨hn, hr, hs⟩ | ⟨hn, hr, hs⟩ := execEnc_cases s
  · exact ⟨_, _, _, hs, execEnc_noWrite (hfr.nothingToSend ▸ hn),
      { h with txLen := rfl, txRes := rfl, txBytes := rfl }, rfl, rfl⟩
  · exact ⟨_, _, _, hs, execEnc_refused (hfr.nothingToSend ▸ hn) (hfr.encRefused ▸ hr),
      { h.setFlag .config with txLen := rfl, txRes := rfl, txBytes := rfl }, rfl, rfl⟩
  · have hlen := congrArg (fun l => BitVec.ofNat 6 (List.length l)) hfr.frameBytes
    have hbytes := (validElems_frame s.toBlock s.txBuf).trans
      (hfr.frameBytes.trans (validElems_frame t.toBlock t.txBuf).symm)
    exact ⟨_, _, _, hs, execEnc_frame (hfr.nothingToSend ▸ hn) (hfr.encRefused ▸ hr),
      { h with txLen := hlen, txRes := rfl, txBytes := hbytes }, rfl, rfl⟩

theorem dec_answersAlike (hle : s.rxLen.toNat ≤ 48) : AnswersAlike .dec s t := by
  have hfr := h.sameFraming
  obtain ⟨h0, hs⟩ | ⟨h0, hc, hw, hs⟩ | ⟨h0, hc, hm, hs⟩ | ⟨h0, hc, hm, info, hd, hs⟩ | ⟨h0, hc, hm, hd, hs⟩ :=
      execDec_cases s <;>
    rw [h.rxLen] at h0
  · exact ⟨_, _, _, hs, execDec_noData h0, { h with rxRes := rfl, rxNw := rfl, rxWords := rfl }, rfl, rfl⟩
  · exact ⟨_, _, _, hs, execDec_config h0 (hfr.rxCrcOn ▸ hc) (h.crcWidth ▸ hw),
      h.decFailed .config s.rxw t.rxw h.errInfo, rfl, rfl⟩
  all_goals
    rw [hfr.rxCrcOn, h.crcWidth] at hc
    rw [h.rxLen, hfr.blockSize] at hm
  · exact ⟨_, _, _, hs, execDec_length h0 hc hm, h.decFailed .length s.rxw t.rxw h.errInfo, rfl, rfl⟩
  · have hinfo : (if flagSet s.errFlags .checksum then s.errInfo else info) =
        if flagSet t.errFlags .checksum then t.errInfo else info := by rw [h.errFlags, h.errInfo]
    exact ⟨_, _, _, hs, execDec_checksum h0 hc hm (hfr.decodeBlocks ▸ hd),
      h.decFailed .checksum _ _ hinfo, rfl, rfl⟩
  · have hd' : (decodeBlocks t.toBlock).2 = none := hfr.decodeBlocks ▸ hd
    have hnw : BitVec.ofNat 5 (s.rxLen.toNat / blockSize s.toBlock) =
        BitVec.ofNat 5 (t.rxLen.toNat / blockSize t.toBlock) := by rw [h.rxLen, hfr.blockSize]
    have hwords := (validElems_decoded hle hd s.rxw).trans
      ((congrArg Prod.fst hfr.decodeBlocks).trans (validElems_decoded (h.rxLen ▸ hle) hd' t.rxw).symm)
    exact ⟨_, _, _, hs, execDec_words h0 hc hm hd',
      { h with rxRes := rfl, rxNw := hnw, rxWords := hwords }, rfl, rfl⟩

end

/-- Settles O57: command by command; the invariant bounds the counts of the arrays that grow. -/
theorem noHiddenState : Obligations.NoHiddenState := by
  intro i s t hs _ h
  have hinv := (Block.inv_iff_clauses _).1 hs
  change AnswersAlike i s t
  cases i with
  | nop => exact ⟨_, _, _, rfl, rfl, h, rfl, rfl⟩
  | reset => exact ⟨_, _, _, rfl, rfl, .refl Block.reset, rfl, rfl⟩
  | errclr => exact ⟨_, _, _, rfl, rfl, { h with errFlags := rfl, errInfo := rfl }, rfl, rfl⟩
  | rd a => exact rd_answersAlike h a
  | setw w => exact setw_answersAlike h w
  | setp v => exact ⟨_, _, _, rfl, rfl, { h with crcPoly := rfl }, rfl, rfl⟩
  | seti v => exact ⟨_, _, _, rfl, rfl, { h with crcInit := rfl }, rfl, rfl⟩
  | setx v => exact ⟨_, _, _, rfl, rfl, { h with crcXorout := rfl }, rfl, rfl⟩
  | setf f => exact ⟨_, _, _, rfl, rfl, { h with frmCfg := rfl }, rfl, rfl⟩
  | crcinit => exact crcinit_answersAlike h
  | crcb d => exact crcb_answersAlike h d
  | txclr => exact ⟨_, _, _, rfl, rfl, { h with txOpcp := rfl, txOpc := rfl, txNw := rfl, txWords := rfl }, rfl, rfl⟩
  | txopc v => exact ⟨_, _, _, rfl, rfl, { h with txOpcp := rfl, txOpc := rfl }, rfl, rfl⟩
  | txw v => exact txw_answersAlike h hinv.txNw v
  | enc => exact enc_answersAlike h
  | rxclr => exact ⟨_, _, _, rfl, rfl, { h with rxLen := rfl, rxBytes := rfl }, rfl, rfl⟩
  | rxb d => exact rxb_answersAlike h hinv.rxLen d
  | dec => exact dec_answersAlike h hinv.rxLen

end Sys2Proof.Machine
end

section
/-! Which commands write which registers (spec 10_state R12 to R25, 60_exceptions R137): read off the effects. -/

namespace Sys2Proof

theorem encode_eq_of_fields {c : CmdWord} {i : Instr} (hop : opcodeOf i = CmdWord.op c)
    (harg : argOf i = CmdWord.arg c) : encode i = c := by
  rw [encode, hop, harg, op_append_arg]

/-- A legal command word is the encoding of its command (R60, R61, R69). -/
theorem encode_of_decode {c : CmdWord} {i : Instr} (h : decode c = .instr i) : encode i = c := by
  unfold decode at h
  split at h
  case h_19 => cases h
  all_goals
    rename_i hop
    simp only [noOperand_eq_instr, lowOperand_eq_instr] at h
    obtain ⟨harg, rfl⟩ := h
    exact encode_eq_of_fields (BitVec.eq_of_toNat_eq hop.symm)
      (by simp only [argOf, setWidth_of_high_zero, BitVec.setWidth_eq, harg])

end Sys2Proof

namespace Sys2Proof.Machine

open Sys2Proof

/-- A command that clears a flag is `ERRCLR` or `RESET` (R24, R137). -/
theorem Effect.clears_flag {b c : Block} {i : Instr} (heff : Effect b i c) {j : Nat}
    (hb : b.errFlags.getLsbD j = true) (hc : c.errFlags.getLsbD j = false) : i = .errclr ∨ i = .reset := by
  cases heff with
  | errclr => exact .inl rfl
  | reset => exact .inr rfl
  | rdEmpty | setwIllegal | txwFull | encRefused | rxbFull | decFailed => simp [setFlag_keeps _ _ _ hb] at hc
  | _ => simp [hb] at hc

/-- Settles O53: an illegal word and every command but `ERRCLR` and `RESET` keep the flags that are set. -/
theorem errorFlagsAreSticky : Obligations.ErrorFlagsAreSticky := by
  intro s t j hstep hs ht
  obtain ⟨_, rfl⟩ | ⟨p, rest, hm, _⟩ | ⟨_, _, _, _, _, hb⟩ | ⟨c, rest, i, hm, hd, heff⟩ := step_cases hstep
  · simp [hs] at ht
  · exact ⟨rest, .inl ⟨p, hm⟩⟩
  · simp [hb, setFlag_keeps _ _ _ hs] at ht
  · rw [← encode_of_decode hd] at hm
    obtain rfl | rfl := heff.clears_flag hs ht
    · exact ⟨rest, .inr (.inl hm)⟩
    · exact ⟨rest, .inr (.inr hm)⟩

/-- Settles O54: the effects of the commands, register by register. -/
theorem configurationIsWrittenByItsCommands : Obligations.ConfigurationIsWrittenByItsCommands := by
  intro i s t hexec hi
  have heff := exec_effect hexec
  generalize t.toBlock = c at heff ⊢
  cases heff with
  | reset => exact absurd rfl hi
  | _ => simp

/-- Settles O55: the effects of the commands, register by register. -/
theorem resultsAreSnapshots : Obligations.ResultsAreSnapshots := by
  intro i s t hexec hi
  have heff := exec_effect hexec
  generalize t.toBlock = c at heff ⊢
  cases heff with
  | reset => exact absurd rfl hi
  | _ => simp

end Sys2Proof.Machine
end

section
/-! The bounds of the CRC's results (spec 10_state R17, 41_crc R90, R91), the reset values (R30) and the view
`STATUS` (R26, 60_exceptions R140). -/

namespace Sys2Proof.Machine

open Sys2Proof

/-- One pass of R90 leaves no bit at or above the width. -/
theorem crcShift_getLsbD_of_ge {W i : Nat} (h : W ≤ i) (P r : Long) : (crcShift W P r).getLsbD i = false := by
  have hmask : (mask W).getLsbD i = false := by simp [show ¬ i < W by omega]
  simp only [crcShift]
  split <;> simp [hmask]

theorem crcStep_getLsbD_of_ge {W i : Nat} (hW : W ≠ 0) (h : W ≤ i) (P r : Long) (b : Byte) :
    (crcStep W P r b).getLsbD i = false := by
  obtain ⟨n, rfl⟩ := Nat.exists_eq_succ_of_ne_zero hW
  rw [crcStep, crcShifts_succ']
  exact crcShift_getLsbD_of_ge h _ _

theorem crc_getLsbD_of_ge {W i : Nat} (h : W ≤ i) (P I X : Long) (m : List Byte) :
    (crc W P I X m).getLsbD i = false := by
  simp [crc_eq_foldl, show ¬ i < W by omega]

/-- Settles O28: the last pass of a step, and the last mask of a checksum. -/
theorem crcResultsStayBelowTheWidth : Obligations.CrcResultsStayBelowTheWidth := by
  intro W P I X r b m hW
  have hpos : W ≠ 0 := by rintro rfl; simp at hW
  exact ⟨fun i hi => crcStep_getLsbD_of_ge hpos hi P r b, fun i hi => crc_getLsbD_of_ge hi P I X m⟩

/-- Settles O12: on all three ways the registers are `Block.reset`. -/
theorem resetLeavesTheResetValues : Obligations.ResetLeavesTheResetValues := by
  intro b hb
  have hreset : b = Block.reset := by
    obtain rfl | ⟨s, t, hexec, rfl⟩ | ⟨s, t, p, rest, hm, hstep, rfl⟩ := hb
    · rfl
    · rw [← Host.Outcome.next.inj hexec]; rfl
    · rw [← Host.Outcome.next.inj ((step_rst hm).symm.trans hstep)]; rfl
  subst hreset
  refine ⟨rfl, rfl, rfl, rfl, rfl, rfl, rfl, rfl, rfl, ?_, rfl, rfl, ?_, rfl, ?_, rfl, rfl, ?_, rfl, rfl,
    by decide, by decide, by decide, by decide⟩ <;> intro i hi <;> simp [Block.reset, hi]

/-- Bit `i` of `STATUS`, field by field (R26). -/
theorem status_getLsbD (b : Block) (i : Nat) :
    (status b).getLsbD i =
      if i < 2 then b.txRes.getLsbD i else if i < 4 then b.rxRes.getLsbD (i - 2)
      else if i < 5 then b.txOpcp.getLsbD (i - 4) else decide (i = 5) && errOut b := by
  change BitVec.getLsbD (w := 26 + 1 + 1 + 2 + 2)
    (0#26 ++ BitVec.ofBool (errOut b) ++ b.txOpcp ++ b.rxRes ++ b.txRes) i = _
  simp only [BitVec.getLsbD_append]
  match i with
  | 0 | 1 | 2 | 3 | 4 => rfl
  | 5 => simp
  | i + 6 => simp

/-- Settles O21: `status_getLsbD` on the bits of each field. -/
theorem statusShowsItsFields : Obligations.StatusShowsItsFields := by
  intro b
  have herr : errOut b = true ↔ b.errFlags ≠ 0 := by simp [errOut]
  refine ⟨?_, ?_, ?_, by rw [← herr, status_getLsbD]; simp, ?_, herr⟩ <;>
    apply BitVec.eq_of_getLsbD_eq <;> intro i hi <;> rw [BitVec.getLsbD_extractLsb', status_getLsbD]
  · simp [hi]
  · simp [hi, show ¬ 2 + i < 2 by omega, show 2 + i < 4 by omega]
  · obtain rfl : i = 0 := by omega
    simp
  · simp [show ¬ 6 + i < 2 by omega, show ¬ 6 + i < 4 by omega, show ¬ 6 + i < 5 by omega, show 6 + i ≠ 5 by omega]

end Sys2Proof.Machine
end

section
/-! The byte order of words (spec 20_memory R41). -/

namespace Sys2Proof.Machine

open Sys2Proof

/-- The two bytes of a word (R7) make it up. -/
theorem hiByte_append_loByte (w : Word) : hiByte w ++ loByte w = w :=
  (BitVec.extractLsb'_append_extractLsb'_eq_extractLsb' rfl).trans BitVec.extractLsb'_eq_self

theorem unpack_pack (wle : Bool) (w : Word) : unpack wle (pack wle w).1 (pack wle w).2 = w := by
  cases wle <;> exact hiByte_append_loByte w

/-- Two bytes side by side as a number, the left one above the right one. -/
theorem toNat_append_bytes (b0 b1 : Byte) : (b0 ++ b1 : Word).toNat = b0.toNat * 256 + b1.toNat := by
  calc (b0 ++ b1 : Word).toNat
      = b0.toNat <<< 8 ||| b1.toNat := BitVec.toNat_append b0 b1
    _ = b0.toNat <<< 8 + b1.toNat := (Nat.shiftLeft_add_eq_or_of_lt b1.isLt _).symm
    _ = b0.toNat * 256 + b1.toNat := by rw [Nat.shiftLeft_eq]

/-- Settles O46: a word is its high byte above its low byte, whichever goes first on the wire. -/
theorem unpackInvertsPack : Obligations.UnpackInvertsPack := fun wle w =>
  ⟨rfl, unpack_pack wle w, fun b0 b1 => ⟨toNat_append_bytes b0 b1, toNat_append_bytes b1 b0⟩⟩

end Sys2Proof.Machine
end

section
/-! The read-address space (spec 20_memory R44, R51): the range is `a.toNat / 0x1000`, the index
`a.toNat % 0x1000`. -/

namespace Sys2Proof.Machine

open Sys2Proof

theorem toNat_addrRange (a : BitVec 16) : (a.extractLsb' 12 4).toNat = a.toNat / 0x1000 := by
  rw [BitVec.extractLsb'_toNat, Nat.shiftRight_eq_div_pow]; omega

theorem toNat_addrIndex (a : BitVec 16) : (a.extractLsb' 0 12).toNat = a.toNat % 0x1000 := by
  rw [BitVec.extractLsb'_toNat, Nat.shiftRight_zero]

section

variable {a : BitVec 16} (b : Block)

theorem memRead_registers (h : a.toNat / 0x1000 = 0) : memRead b a = (registerMap b).lookup a := by
  simp only [memRead, toNat_addrRange, h]

theorem memRead_txw (h : a.toNat / 0x1000 = 1) :
    memRead b a = readElem b.txw b.txNw.toNat (a.toNat % 0x1000) := by
  simp only [memRead, toNat_addrRange, toNat_addrIndex, h]

theorem memRead_txBuf (h : a.toNat / 0x1000 = 2) :
    memRead b a = readElem b.txBuf b.txLen.toNat (a.toNat % 0x1000) := by
  simp only [memRead, toNat_addrRange, toNat_addrIndex, h]

theorem memRead_rxBuf (h : a.toNat / 0x1000 = 3) :
    memRead b a = readElem b.rxBuf b.rxLen.toNat (a.toNat % 0x1000) := by
  simp only [memRead, toNat_addrRange, toNat_addrIndex, h]

theorem memRead_rxw (h : a.toNat / 0x1000 = 4) :
    memRead b a = readElem b.rxw b.rxNw.toNat (a.toNat % 0x1000) := by
  simp only [memRead, toNat_addrRange, toNat_addrIndex, h]

theorem memRead_of_range_ge (h : 5 ≤ a.toNat / 0x1000) : memRead b a = none := by
  obtain ⟨k, hk⟩ := Nat.exists_eq_add_of_le' h
  simp only [memRead, toNat_addrRange, hk]

end

/-- What `RD` reads of an array register: an element that exists, below the count (R51). -/
theorem readElem_eq_some_iff {w n : Nat} {xs : Vector (BitVec w) n} {count i : Nat} {v : Long} :
    readElem xs count i = some v ↔ ∃ h : i < n, i < count ∧ v = xs[i].setWidth 32 := by
  rw [readElem_eq, Option.map_eq_some_iff]
  simp only [validElems_getElem?, Option.ite_none_right_eq_some, Vector.getElem?_eq_some_iff]
  constructor
  · rintro ⟨_, ⟨hc, h, rfl⟩, rfl⟩; exact ⟨h, hc, rfl⟩
  · rintro ⟨h, hc, rfl⟩; exact ⟨_, ⟨hc, h, rfl⟩, rfl⟩

theorem readElem_of_lt {w n : Nat} (xs : Vector (BitVec w) n) {count i : Nat} (h : i < n) (hc : i < count) :
    readElem xs count i = some (xs[i].setWidth 32) := readElem_eq_some_iff.2 ⟨h, hc, rfl⟩

/-- The address of element `i` of range `k`, taken apart. -/
theorem addr_div_mod {k i : Nat} (hk : k < 16) (hi : i < 0x1000) :
    (BitVec.ofNat 16 (0x1000 * k + i)).toNat / 0x1000 = k ∧
      (BitVec.ofNat 16 (0x1000 * k + i)).toNat % 0x1000 = i := by
  rw [BitVec.toNat_ofNat]; omega

/-- The single locations are exactly the addresses of the table. -/
theorem mem_keys_of_lookup {b : Block} {a : BitVec 16} {v : Long} (h : (registerMap b).lookup a = some v) :
    a ∈ (registerMap b).map Prod.fst := by
  obtain ⟨l₁, l₂, hl, _⟩ := List.lookup_eq_some_iff.1 h
  rw [hl]
  simp

/-- Every readable address is a single location or an element below its array's count (R44, R51). -/
theorem memRead_eq_some_cases {b : Block} {a : BitVec 16} {v : Long} (h : memRead b a = some v) :
    a ∈ (registerMap b).map Prod.fst ∨
    (∃ i, i < 16 ∧ i < b.txNw.toNat ∧ a.toNat = 0x1000 + i) ∨
    (∃ i, i < 50 ∧ i < b.txLen.toNat ∧ a.toNat = 0x2000 + i) ∨
    (∃ i, i < 48 ∧ i < b.rxLen.toNat ∧ a.toNat = 0x3000 + i) ∨
    (∃ i, i < 24 ∧ i < b.rxNw.toNat ∧ a.toNat = 0x4000 + i) := by
  match hr : a.toNat / 0x1000 with
  | 0 => rw [memRead_registers b hr] at h; exact .inl (mem_keys_of_lookup h)
  | 1 =>
    rw [memRead_txw b hr] at h
    obtain ⟨hi, hc, _⟩ := readElem_eq_some_iff.1 h
    exact .inr (.inl ⟨_, hi, hc, by omega⟩)
  | 2 =>
    rw [memRead_txBuf b hr] at h
    obtain ⟨hi, hc, _⟩ := readElem_eq_some_iff.1 h
    exact .inr (.inr (.inl ⟨_, hi, hc, by omega⟩))
  | 3 =>
    rw [memRead_rxBuf b hr] at h
    obtain ⟨hi, hc, _⟩ := readElem_eq_some_iff.1 h
    exact .inr (.inr (.inr (.inl ⟨_, hi, hc, by omega⟩)))
  | 4 =>
    rw [memRead_rxw b hr] at h
    obtain ⟨hi, hc, _⟩ := readElem_eq_some_iff.1 h
    exact .inr (.inr (.inr (.inr ⟨_, hi, hc, by omega⟩)))
  | k + 5 => simp [memRead_of_range_ge b (show 5 ≤ a.toNat / 0x1000 by omega)] at h

/-- Settles O20: the single locations by evaluation of the table, the elements by `readElem_of_lt`, and nothing else
by `memRead_eq_some_cases`. -/
theorem readMapIsTheTable : Obligations.ReadMapIsTheTable := by
  intro b
  refine ⟨rfl, rfl, rfl, rfl, rfl, rfl, rfl, rfl, rfl, rfl, rfl, rfl, rfl, rfl, rfl, rfl, ?_, ?_, ?_, ?_,
    fun _ _ => memRead_eq_some_cases⟩ <;> intro i h hc
  · obtain ⟨hr, hi⟩ := addr_div_mod (k := 1) (i := i) (by decide) (by omega)
    rw [memRead_txw b hr, hi, readElem_of_lt _ h hc]
  · obtain ⟨hr, hi⟩ := addr_div_mod (k := 2) (i := i) (by decide) (by omega)
    rw [memRead_txBuf b hr, hi, readElem_of_lt _ h hc]
  · obtain ⟨hr, hi⟩ := addr_div_mod (k := 3) (i := i) (by decide) (by omega)
    rw [memRead_rxBuf b hr, hi, readElem_of_lt _ h hc]
  · obtain ⟨hr, hi⟩ := addr_div_mod (k := 4) (i := i) (by decide) (by omega)
    rw [memRead_rxw b hr, hi, readElem_of_lt _ h hc]

end Sys2Proof.Machine
end

section
/-! Repeating `ENC` or `DEC` (spec 20_memory R46): neither writes what it reads, and each of its writes made twice
is made once. -/

namespace Sys2Proof.Machine

open Sys2Proof

/-- Writing the same values again from the same index changes nothing. -/
theorem writeFrom_writeFrom_same {w n : Nat} (xs : Vector (BitVec w) n) (i : Nat) (vs : List (BitVec w)) :
    writeFrom (writeFrom xs i vs) i vs = writeFrom xs i vs := by
  apply Vector.ext
  intro j hj
  have helem : (writeFrom (writeFrom xs i vs) i vs)[j]? = (writeFrom xs i vs)[j]? := by
    simp only [writeFrom_getElem?]; split <;> rfl
  simpa [hj] using helem

/-- Setting a flag twice is setting it once (R133). -/
theorem setFlag_setFlag_same (f : BitVec 8) (e : ErrCode) : setFlag (setFlag f e) e = setFlag f e := by
  rw [setFlag, setFlag, BitVec.or_assoc, BitVec.or_self]

/-- What `ENC` writes is not among what it reads (R103). -/
theorem Block.sameFraming_encResults (b : Block) (xs : Vector Byte Config.txbMax) (n : BitVec 6) (res : BitVec 2) :
    { b with txBuf := xs, txLen := n, txRes := res }.SameFraming b := by
  constructor <;> rfl

/-- What `DEC` writes is not among what it reads (R112). -/
theorem Block.sameFraming_decResults (b : Block) (xs : Vector Word Config.rxwMax) (n : BitVec 5) (res : BitVec 2)
    (flags : BitVec 8) (info : BitVec 24) :
    { b with rxw := xs, rxNw := n, rxRes := res, errFlags := flags, errInfo := info }.SameFraming b := by
  constructor <;> rfl

/-- Command `i` completes, and completes again with the same response word and no register changed (R46). -/
def AnswersAgain (i : Instr) (s : State) : Prop :=
  ∃ (t u : State) (r : RspWord),
    exec i s = .next t ∧ exec i t = .next u ∧ u.toBlock = t.toBlock ∧
    t.rsps = s.rsps ++ [r] ∧ u.rsps = t.rsps ++ [r]

theorem enc_answersAgain (s : State) : AnswersAgain .enc s := by
  obtain ⟨hn, h⟩ | ⟨hn, hr, h⟩ | ⟨hn, hr, h⟩ := execEnc_cases s
  · exact ⟨_, _, _, h, execEnc_noWrite hn, rfl, rfl, rfl⟩
  · exact ⟨_, _, _, h, execEnc_refused hn hr, by simp [setFlag_setFlag_same], rfl, rfl⟩
  · refine ⟨_, _, _, h, execEnc_frame hn hr, ?_, rfl, rfl⟩
    simp [(s.toBlock.sameFraming_encResults _ _ _).frameBytes, writeFrom_writeFrom_same]

theorem dec_answersAgain (s : State) : AnswersAgain .dec s := by
  have hfr {xs n res flags info} := s.toBlock.sameFraming_decResults xs n res flags info
  obtain ⟨h0, h⟩ | ⟨h0, hc, hw, h⟩ | ⟨h0, hc, hm, h⟩ | ⟨h0, hc, hm, info, hd, h⟩ | ⟨h0, hc, hm, hd, h⟩ :=
    execDec_cases s
  · exact ⟨_, _, _, h, execDec_noData h0, rfl, rfl, rfl⟩
  · exact ⟨_, _, _, h, execDec_config h0 hc hw, by simp [setFlag_setFlag_same], rfl, rfl⟩
  · exact ⟨_, _, _, h, execDec_length h0 hc hm, by simp [setFlag_setFlag_same], rfl, rfl⟩
  · refine ⟨_, _, _, h, execDec_checksum h0 hc hm ((congrArg Prod.snd hfr.decodeBlocks).trans hd), ?_, rfl, rfl⟩
    simp [hfr.decodeBlocks, writeFrom_writeFrom_same, setFlag_setFlag_same, flagSet_setFlag]
  · refine ⟨_, _, _, h, execDec_words h0 hc hm ((congrArg Prod.snd hfr.decodeBlocks).trans hd), ?_, rfl, rfl⟩
    simp [hfr.decodeBlocks, hfr.blockSize, writeFrom_writeFrom_same]

/-- Settles O39: outcome by outcome, the same one again. -/
theorem encAndDecAreIdempotent : Obligations.EncAndDecAreIdempotent := by
  rintro i s (rfl | rfl)
  · exact enc_answersAgain s
  · exact dec_answersAgain s

end Sys2Proof.Machine
end

section
/-! The decoder and the encoder, format by format (spec 30_encoding R61, R64, R69): a command stands for the commands
of its operation code, whose operand is the low bits of `arg`. Format `Z` is the format with an operand of no bits. -/

namespace Sys2Proof

/-- An operand format together with the commands it gives: how many low bits of `arg` are the operand, and the command
for each operand. -/
structure OperandFormat where
  bits : Nat
  command : BitVec bits → Instr

/-- The format of a command's row of the opcode map (R64), whatever the command's own operand is. -/
def formatOf : Instr → OperandFormat
  | .nop => ⟨0, fun _ => .nop⟩
  | .reset => ⟨0, fun _ => .reset⟩
  | .errclr => ⟨0, fun _ => .errclr⟩
  | .rd _ => ⟨16, .rd⟩
  | .setw _ => ⟨6, .setw⟩
  | .setp _ => ⟨32, .setp⟩
  | .seti _ => ⟨32, .seti⟩
  | .setx _ => ⟨32, .setx⟩
  | .setf _ => ⟨3, .setf⟩
  | .crcinit => ⟨0, fun _ => .crcinit⟩
  | .crcb _ => ⟨8, .crcb⟩
  | .txclr => ⟨0, fun _ => .txclr⟩
  | .txopc _ => ⟨16, .txopc⟩
  | .txw _ => ⟨16, .txw⟩
  | .enc => ⟨0, fun _ => .enc⟩
  | .rxclr => ⟨0, fun _ => .rxclr⟩
  | .rxb _ => ⟨8, .rxb⟩
  | .dec => ⟨0, fun _ => .dec⟩

theorem formatOf_bits_le (i : Instr) : (formatOf i).bits ≤ 32 := by cases i <;> simp [formatOf]

/-- Every command is its format's command for the operand that its argument carries. -/
theorem exists_operand (i : Instr) : ∃ v, (formatOf i).command v = i ∧ argOf i = v.setWidth 32 := by
  cases i
  case rd v | setw v | setf v | crcb v | txopc v | txw v | rxb v => exact ⟨v, rfl, rfl⟩
  case setp v | seti v | setx v => exact ⟨v, rfl, (BitVec.setWidth_eq v).symm⟩
  all_goals exact ⟨0#0, rfl, rfl⟩

/-- A format's commands are all of one row of the map. -/
theorem rowOf_command (i : Instr) (v : BitVec (formatOf i).bits) : rowOf ((formatOf i).command v) = rowOf i := by
  cases i <;> rfl

/-- The row of a command: its operation code, and a mask that leaves out the operand's bits (R64). -/
theorem rowOf_eq (i : Instr) :
    rowOf i = ⟨opcodeOf i ++ 0#32, 0xFF#8 ++ (BitVec.allOnes 32 <<< (formatOf i).bits)⟩ := by
  cases i <;> rw [rowOf, opcodeOf, formatOf] <;> rfl

theorem noOperand_eq_lowOperand (arg : BitVec 32) (i : Instr) :
    noOperand arg i = lowOperand 0 arg fun _ => i := by
  simp [noOperand, lowOperand]

/-- A command's operation code makes the decoder read its operand by its format (R69). -/
theorem decode_opcodeOf_append (i : Instr) (arg : BitVec 32) :
    decode (opcodeOf i ++ arg) = lowOperand (formatOf i).bits arg (formatOf i).command := by
  cases i <;> simp [decode, opcodeOf, formatOf, noOperand_eq_lowOperand]

theorem decode_encode (i : Instr) : decode (encode i) = .instr i := by
  obtain ⟨v, hi, harg⟩ := exists_operand i
  rw [encode, decode_opcodeOf_append, harg, lowOperand_setWidth _ (formatOf_bits_le i), hi]

/-- Settles O2: the decoder reads back the operand that the argument carries. -/
theorem decodeOfEncodeIsTheCommand : Obligations.DecodeOfEncodeIsTheCommand := decode_encode

/-- Settles O3: both formats, the operation code and the argument recovered from the decoded operand. -/
theorem encodeOfDecodedIsTheWord : Obligations.EncodeOfDecodedIsTheWord := fun _ _ => encode_of_decode

/-- Settles O1: the decoder run on each word. -/
theorem decodeReadsSpecWords : Obligations.DecodeReadsSpecWords := by
  unfold Obligations.DecodeReadsSpecWords
  decide

end Sys2Proof
end

section
/-! The opcode map against the decoder (spec 30_encoding R64): a row selects exactly the words that decode to its
commands. -/

namespace Sys2Proof

/-- The bits above the low `n` are all 0 exactly if the mask that leaves out the low `n` gives 0. -/
theorem and_highMask_eq_zero_iff (arg : BitVec 32) (n : Nat) :
    arg &&& (BitVec.allOnes 32 <<< n) = 0 ↔ arg >>> n = 0 := by
  rw [← BitVec.shiftLeft_ushiftRight]
  constructor <;> intro h
  · apply BitVec.eq_of_getLsbD_eq
    intro i hi
    have hbit := congrArg (BitVec.getLsbD · (n + i)) h
    by_cases hn : n + i < 32
    · simpa [hn] using hbit
    · simp [BitVec.getLsbD_of_ge arg (n + i) (by omega)]
  · rw [h]; simp

theorem append_eq_append_iff {a b : BitVec 8} {x y : BitVec 32} : a ++ x = b ++ y ↔ a = b ∧ x = y := by
  constructor
  · intro h
    have hop := congrArg CmdWord.op h
    have harg := congrArg CmdWord.arg h
    simp only [op_append, arg_append] at hop harg
    exact ⟨hop, harg⟩
  · rintro ⟨rfl, rfl⟩; rfl

/-- A command's row selects a word by its operation code and its reserved bits. -/
theorem rowOf_selects_iff (i : Instr) (c : CmdWord) :
    (rowOf i).selects c = true ↔ CmdWord.op c = opcodeOf i ∧ CmdWord.arg c >>> (formatOf i).bits = 0 := by
  have hand (m : BitVec 32) : c &&& (0xFF#8 ++ m) = CmdWord.op c ++ (CmdWord.arg c &&& m) := by
    conv_lhs => rw [← op_append_arg c]
    exact BitVec.and_append.trans (congrArg (· ++ _) BitVec.and_allOnes)
  rw [OpcodeRow.selects, beq_iff_eq, rowOf_eq, hand, append_eq_append_iff]
  exact and_congr_right fun _ => and_highMask_eq_zero_iff _ _

theorem rowOf_selects_encode (i : Instr) : (rowOf i).selects (encode i) = true := by
  cases i
  exacts [Laws.Row.nop, Laws.Row.reset, Laws.Row.errclr, Laws.Row.rd _, Laws.Row.setw _, Laws.Row.setp _,
    Laws.Row.seti _, Laws.Row.setx _, Laws.Row.setf _, Laws.Row.crcinit, Laws.Row.crcb _, Laws.Row.txclr,
    Laws.Row.txopc _, Laws.Row.txw _, Laws.Row.enc, Laws.Row.rxclr, Laws.Row.rxb _, Laws.Row.dec]

/-- What a row selects decodes to a command of the row. -/
theorem decode_of_rowOf_selects {i : Instr} {c : CmdWord} (h : (rowOf i).selects c = true) :
    ∃ j, decode c = .instr j ∧ rowOf j = rowOf i := by
  obtain ⟨hop, harg⟩ := (rowOf_selects_iff i c).1 h
  refine ⟨(formatOf i).command ((CmdWord.arg c).setWidth _), ?_, rowOf_command i _⟩
  rw [← op_append_arg c, hop, decode_opcodeOf_append, arg_append, lowOperand_eq_instr]
  exact ⟨harg, rfl⟩

theorem rowOf_mem_opcodeMap (i : Instr) : rowOf i ∈ opcodeMap := by
  cases i <;> simp [opcodeMap, rowOf]

theorem exists_rowOf_of_mem_opcodeMap {r : OpcodeRow} (h : r ∈ opcodeMap) : ∃ i, rowOf i = r := by
  simp only [opcodeMap, List.mem_cons, List.not_mem_nil, or_false] at h
  rcases h with h | h | h | h | h | h | h | h | h | h | h | h | h | h | h | h | h | h <;> exact ⟨_, h.symm⟩

/-- "exactly the legal words of a command match its row" (R64). -/
theorem selects_iff_decode {r : OpcodeRow} (hr : r ∈ opcodeMap) (c : CmdWord) :
    r.selects c = true ↔ ∃ i, decode c = .instr i ∧ rowOf i = r := by
  constructor
  · obtain ⟨i, rfl⟩ := exists_rowOf_of_mem_opcodeMap hr
    exact decode_of_rowOf_selects
  · rintro ⟨i, hd, rfl⟩
    exact encode_of_decode hd ▸ rowOf_selects_encode i

/-- "no word matches two rows" (R64): a word decodes to one command, which has one row. -/
theorem row_unique_of_selects {r r' : OpcodeRow} {c : CmdWord} (hr : r ∈ opcodeMap) (hr' : r' ∈ opcodeMap)
    (h : r.selects c = true) (h' : r'.selects c = true) : r = r' := by
  obtain ⟨i, hd, rfl⟩ := (selects_iff_decode hr c).1 h
  obtain ⟨i', hd', rfl⟩ := (selects_iff_decode hr' c).1 h'
  rw [Decoded.instr.inj (hd.symm.trans hd')]

/-- Settles O4: the table by evaluation, then `selects_iff_decode` and `row_unique_of_selects`. -/
theorem legalWordsMatchExactlyTheirRow : Obligations.LegalWordsMatchExactlyTheirRow :=
  ⟨rfl, fun _ _ _ _ _ _ _ _ _ _ => rfl, fun c _ hr => selects_iff_decode hr c,
    fun _ _ _ => row_unique_of_selects⟩

/-- The legal words are the ones that decode to a command (R65). -/
theorem wellFormedWord_iff_decode (c : CmdWord) : wellFormedWord c = true ↔ ∃ i, decode c = .instr i := by
  rw [wellFormedWord, List.any_eq_true]
  constructor
  · rintro ⟨r, hr, h⟩
    obtain ⟨i, hd, _⟩ := (selects_iff_decode hr c).1 h
    exact ⟨i, hd⟩
  · rintro ⟨i, hd⟩
    exact ⟨rowOf i, rowOf_mem_opcodeMap i, (selects_iff_decode (rowOf_mem_opcodeMap i) c).2 ⟨i, hd, rfl⟩⟩

end Sys2Proof
end

section
/-! The formats with the operand and the reserved bits as fields of `arg` (spec 30_encoding R61). -/

namespace Sys2Proof

/-- The reserved bits of a format as a field of `arg`. -/
theorem extractLsb'_high_eq_zero_iff {n : Nat} (hn : n ≤ 32) (arg : BitVec 32) :
    arg.extractLsb' n (32 - n) = 0 ↔ arg >>> n = 0 := by
  constructor <;> intro h <;> apply BitVec.eq_of_getLsbD_eq <;> intro i hi <;>
    have hbit := congrArg (BitVec.getLsbD · i) h
  · by_cases hlt : i < 32 - n
    · simpa [hlt] using hbit
    · simp [BitVec.getLsbD_of_ge arg (n + i) (by omega)]
  · simpa [hi] using hbit

theorem lowOperand_eq_fields {n : Nat} (hn : n ≤ 32) (arg : BitVec 32) (mk : BitVec n → Instr) :
    lowOperand n arg mk =
      if arg.extractLsb' n (32 - n) = 0 then .instr (mk (arg.extractLsb' 0 n)) else .illegal .reservedBit := by
  simp only [lowOperand, extractLsb'_high_eq_zero_iff hn, BitVec.setWidth_eq_extractLsb' hn]

/-- Format `U32` has no reserved bit. -/
theorem lowOperand_whole (arg : BitVec 32) (mk : BitVec 32 → Instr) : lowOperand 32 arg mk = .instr (mk arg) := by
  simp [lowOperand, BitVec.ushiftRight_eq_zero]

/-- A command's operation code: the operand and the reserved bits as fields. -/
theorem decode_opcodeOf_append_fields (i : Instr) (arg : BitVec 32) :
    decode (opcodeOf i ++ arg) =
      if arg.extractLsb' (formatOf i).bits (32 - (formatOf i).bits) = 0
      then .instr ((formatOf i).command (arg.extractLsb' 0 (formatOf i).bits)) else .illegal .reservedBit := by
  rw [decode_opcodeOf_append, lowOperand_eq_fields (formatOf_bits_le i)]

theorem decode_unknownOp {op : BitVec 8} (arg : BitVec 32)
    (h : op ∉ [(0x00 : BitVec 8), 0x01, 0x02, 0x03, 0x10, 0x11, 0x12, 0x13, 0x14, 0x20, 0x21, 0x30, 0x31, 0x32,
      0x33, 0x40, 0x41, 0x42]) :
    decode (op ++ arg) = .illegal .unknownOp := by
  simp only [← BitVec.toNat_inj, List.mem_cons] at h
  unfold decode
  rw [op_append]
  split
  case h_19 => rfl
  all_goals simp [‹op.toNat = _›] at h

/-- Settles O5: `decode_opcodeOf_append` for each operation code of the map, and `decode_unknownOp`. -/
theorem decodeFollowsTheOperandFormats : Obligations.DecodeFollowsTheOperandFormats := by
  intro op arg
  refine ⟨?_, ?_, ?_, ?_, ?_, ?_, ?_, ?_, ?_, ?_, ?_, decode_unknownOp arg⟩
  · intro i hi
    have hfmt : op = opcodeOf i ∧ formatOf i = ⟨0, fun _ => i⟩ := by
      simp only [List.mem_cons, Prod.mk.injEq, List.not_mem_nil, or_false] at hi
      rcases hi with h | h | h | h | h | h | h | h <;> obtain ⟨rfl, rfl⟩ := h <;> exact ⟨rfl, rfl⟩
    obtain ⟨rfl, hz⟩ := hfmt
    rw [decode_opcodeOf_append, hz, ← noOperand_eq_lowOperand, noOperand]
  all_goals rintro rfl
  · exact decode_opcodeOf_append_fields (.setf 0) arg
  · exact decode_opcodeOf_append_fields (.setw 0) arg
  · exact decode_opcodeOf_append_fields (.crcb 0) arg
  · exact decode_opcodeOf_append_fields (.rxb 0) arg
  · exact decode_opcodeOf_append_fields (.rd 0) arg
  · exact decode_opcodeOf_append_fields (.txopc 0) arg
  · exact decode_opcodeOf_append_fields (.txw 0) arg
  · exact (decode_opcodeOf_append (.setp 0) arg).trans (lowOperand_whole arg _)
  · exact (decode_opcodeOf_append (.seti 0) arg).trans (lowOperand_whole arg _)
  · exact (decode_opcodeOf_append (.setx 0) arg).trans (lowOperand_whole arg _)

end Sys2Proof
end

section
/-! The assembler against the opcode map (spec 30_encoding R67). -/

namespace Sys2Proof.Machine

open Sys2Proof

/-- A mnemonic stands for a row of the map: a command's operation code and the width of its operand, none for format
`Z`. -/
theorem mnemonicRow_cases {m : List Char} {op : BitVec 8} {width : Option Nat}
    (h : mnemonicRow m = some (op, width)) : ∃ i, opcodeOf i = op ∧ (formatOf i).bits = width.getD 0 := by
  obtain ⟨l₁, l₂, hl, _⟩ := List.lookup_eq_some_iff.1 h
  have hmem := hl.symm ▸ List.mem_append_right l₁ (List.mem_cons_self (a := (m, op, width)) (l := l₂))
  simp only [List.mem_cons, Prod.mk.injEq, List.not_mem_nil, or_false] at hmem
  rcases hmem with h | h | h | h | h | h | h | h | h | h | h | h | h | h | h | h | h | h <;>
    obtain ⟨-, rfl, rfl⟩ := h
  exacts [⟨.nop, rfl, rfl⟩, ⟨.reset, rfl, rfl⟩, ⟨.errclr, rfl, rfl⟩, ⟨.rd 0, rfl, rfl⟩, ⟨.setw 0, rfl, rfl⟩,
    ⟨.setp 0, rfl, rfl⟩, ⟨.seti 0, rfl, rfl⟩, ⟨.setx 0, rfl, rfl⟩, ⟨.setf 0, rfl, rfl⟩, ⟨.crcinit, rfl, rfl⟩,
    ⟨.crcb 0, rfl, rfl⟩, ⟨.txclr, rfl, rfl⟩, ⟨.txopc 0, rfl, rfl⟩, ⟨.txw 0, rfl, rfl⟩, ⟨.enc, rfl, rfl⟩,
    ⟨.rxclr, rfl, rfl⟩, ⟨.rxb 0, rfl, rfl⟩, ⟨.dec, rfl, rfl⟩]

/-- An operation code and an operand that fits its format make a legal word. -/
theorem decode_of_operand_lt {i : Instr} {n : Nat} (h : n < 2 ^ (formatOf i).bits) :
    ∃ j, decode (opcodeOf i ++ BitVec.ofNat 32 n) = .instr j := by
  have hn : BitVec.ofNat 32 n = (BitVec.ofNat (formatOf i).bits n).setWidth 32 :=
    (BitVec.setWidth_ofNat_of_le_of_lt (formatOf_bits_le i) h).symm
  exact ⟨_, by rw [decode_opcodeOf_append, hn, lowOperand_setWidth _ (formatOf_bits_le i)]⟩

theorem assembleOperand_eq_word {op : BitVec 8} {bits n : Nat} {c : CmdWord}
    (h : assembleOperand op bits n = .word c) : n < 2 ^ bits ∧ c = op ++ BitVec.ofNat 32 n := by
  unfold assembleOperand at h
  split at h
  · exact ⟨‹_›, (Line.word.inj h).symm⟩
  · cases h

/-- What the assembler makes of a line it gives a word for: the operation code of a mnemonic and an operand that
fits, 0 when the format has none. -/
theorem assembleLine_eq_word {line : List Char} {c : CmdWord} (h : assembleLine line = .word c) :
    ∃ m op width n, mnemonicRow m = some (op, width) ∧ n < 2 ^ width.getD 0 ∧ c = op ++ BitVec.ofNat 32 n := by
  unfold assembleLine at h
  split at h
  · cases h
  · split at h
    · rename_i hm
      exact ⟨_, _, none, 0, hm, by simp, (Line.word.inj h).symm⟩
    · cases h
  · split at h
    · rename_i hm _
      obtain ⟨hlt, hc⟩ := assembleOperand_eq_word h
      exact ⟨_, _, _, _, hm, hlt, hc⟩
    · cases h
  · cases h

/-- Settles O6: the mnemonic's row has a command's operation code and operand width. -/
theorem assembledLinesAreLegalWords : Obligations.AssembledLinesAreLegalWords := by
  intro line c h
  obtain ⟨m, op, width, n, hm, hlt, rfl⟩ := assembleLine_eq_word h
  obtain ⟨i, rfl, hbits⟩ := mnemonicRow_cases hm
  exact decode_of_operand_lt (hbits ▸ hlt)

end Sys2Proof.Machine
end

section
/-! What the host receives for a command word (spec 30_encoding R62, R65; 60_exceptions R130, R133). -/

namespace Sys2Proof.Machine

open Sys2Proof

theorem raise_illegal_eq_answered (s : State) :
    raise .illegal 0 s = answered s 0x01 0 { s.toBlock with errFlags := s.errFlags ||| 0x02 } := rfl

/-- Settles O8: a word that no row selects decodes to no command. -/
theorem illegalWordOnlySetsItsFlag : Obligations.IllegalWordOnlySetsItsFlag := by
  intro s c rest hm hwf
  cases hd : decode c with
  | illegal why => rw [step_illegal hm hd, raise_illegal_eq_answered]
  | instr i => simp [(wellFormedWord_iff_decode c).2 ⟨i, hd⟩] at hwf

/-- Command `i` on the registers `b` may answer `code ‖ data`: a code of R130, and data only for a read that
succeeds and for a `DEC` that fails with `E_CHECKSUM` (R62). -/
def ResponseOf (b : Block) (i : Instr) (code : BitVec 8) (data : Long) : Prop :=
  code.toNat ≤ 7 ∧
  (data ≠ 0 → (code = 0x00 ∧ ∃ a, i = .rd a ∧ memRead b a = some data) ∨ (code = 0x07 ∧ i = .dec))

theorem responseOf_of_data_zero (b : Block) (i : Instr) {code : BitVec 8} (h : code.toNat ≤ 7) :
    ResponseOf b i code 0 := ⟨h, fun h0 => absurd rfl h0⟩

theorem responseOf_ok (b : Block) (i : Instr) : ResponseOf b i okCode 0 := responseOf_of_data_zero b i (by decide)

theorem responseOf_raise (b : Block) (i : Instr) (e : ErrCode) : ResponseOf b i (errCode e) 0 :=
  responseOf_of_data_zero b i (by cases e <;> decide)

/-- Every command completes with one response word, as R62 and R130 allow it. -/
theorem exec_responds (i : Instr) (s : State) :
    ∃ t code data, exec i s = .next t ∧ t.moves = s.moves ∧ t.rsps = s.rsps ++ [code ++ data] ∧
      ResponseOf s.toBlock i code data := by
  cases i
  case rd a =>
    obtain ⟨v, hv, h⟩ | ⟨_, h⟩ := execRd_cases a s
    · exact ⟨_, _, _, h, rfl, rfl, by decide, fun _ => .inl ⟨rfl, a, rfl, hv⟩⟩
    · exact ⟨_, _, _, h, rfl, rfl, responseOf_raise _ _ _⟩
  case setw w =>
    obtain ⟨_, h⟩ | ⟨_, h⟩ := execSetw_cases w s
    · exact ⟨_, _, _, h, rfl, rfl, responseOf_ok _ _⟩
    · exact ⟨_, _, _, h, rfl, rfl, responseOf_raise _ _ _⟩
  case txw v =>
    obtain ⟨_, h⟩ | ⟨_, h⟩ := execTxw_cases v s
    · exact ⟨_, _, _, h, rfl, rfl, responseOf_raise _ _ _⟩
    · exact ⟨_, _, _, h, rfl, rfl, responseOf_ok _ _⟩
  case rxb d =>
    obtain ⟨_, h⟩ | ⟨_, h⟩ := execRxb_cases d s
    · exact ⟨_, _, _, h, rfl, rfl, responseOf_raise _ _ _⟩
    · exact ⟨_, _, _, h, rfl, rfl, responseOf_ok _ _⟩
  case enc =>
    obtain ⟨_, h⟩ | ⟨_, _, h⟩ | ⟨_, _, h⟩ := execEnc_cases s
    · exact ⟨_, _, _, h, rfl, rfl, responseOf_ok _ _⟩
    · exact ⟨_, _, _, h, rfl, rfl, responseOf_raise _ _ _⟩
    · exact ⟨_, _, _, h, rfl, rfl, responseOf_ok _ _⟩
  case dec =>
    obtain ⟨_, h⟩ | ⟨_, _, _, h⟩ | ⟨_, _, _, h⟩ | ⟨_, _, _, _, _, h⟩ | ⟨_, _, _, _, h⟩ := execDec_cases s
    · exact ⟨_, _, _, h, rfl, rfl, responseOf_ok _ _⟩
    · exact ⟨_, _, _, h, rfl, rfl, responseOf_raise _ _ _⟩
    · exact ⟨_, _, _, h, rfl, rfl, responseOf_raise _ _ _⟩
    · exact ⟨_, _, _, h, rfl, rfl, by decide, fun _ => .inr ⟨rfl, rfl⟩⟩
    · exact ⟨_, _, _, h, rfl, rfl, responseOf_ok _ _⟩
  all_goals exact ⟨_, _, _, rfl, rfl, rfl, responseOf_ok _ _⟩

/-- Settles O10: an illegal word by `step_illegal`, a command by `exec_responds`. -/
theorem everyCommandWordGetsOneResponse : Obligations.EveryCommandWordGetsOneResponse := by
  intro s c rest hm
  cases hd : decode c with
  | illegal why => exact ⟨_, 0x01, 0, step_illegal hm hd, rfl, rfl, by decide, fun h => absurd rfl h⟩
  | instr i =>
    obtain ⟨t, code, data, hexec, hmoves, hrsps, hcode, hdata⟩ := exec_responds i { s with moves := rest }
    refine ⟨t, code, data, (step_instr hm hd).trans hexec, hmoves, hrsps, hcode, fun h0 => ?_⟩
    obtain ⟨hc, a, rfl, ha⟩ | ⟨hc, rfl⟩ := hdata h0
    · exact .inl ⟨hc, a, rfl, ha⟩
    · exact .inr ⟨hc, rfl⟩

end Sys2Proof.Machine
end

section
/-! Commands given one after another (spec 20_memory R48, 30_encoding R68). -/

namespace Sys2Proof.Machine

open Sys2Proof

theorem run_succ_of_step {M : Host.Core} {s t : M.State} (h : M.step s = .next t) (n : Nat) :
    M.run (n + 1) s = M.run n t := by
  rw [Host.Core.run, h]

@[simp] theorem runAll_nil (s : State) : runAll [] s = .next s := rfl

/-- The first command of a sequence: it is performed with the others still to come, and they run from what it
leaves. -/
theorem runAll_cons {i : Instr} {is : List Instr} {s t : State}
    (h : exec i (presentAll is s) = .next (presentAll is t)) : runAll (i :: is) s = runAll is t := by
  have hstep : step (presentAll (i :: is) s) = .next (presentAll is t) :=
    (step_instr rfl (decode_encode i)).trans h
  exact run_succ_of_step (M := Sys2Proof.core) hstep is.length

/-- `CRCCFG` with a legal width (R68): one command after another, each answering OK. -/
theorem runAll_crccfg (s : State) {w : BitVec 6} (hw : w ∈ Config.legalWidths) (p i x : Long) :
    runAll (expand (.crccfg w p i x)) s =
      .next { s with
        crcWidth := w, crcPoly := p, crcInit := i, crcXorout := x, rsps := s.rsps ++ [0, 0, 0, 0] } :=
  calc runAll (expand (.crccfg w p i x)) s
    _ = runAll [.setp p, .seti i, .setx x] { s with crcWidth := w, rsps := s.rsps ++ [0] } := runAll_cons (if_pos hw)
    _ = runAll [.seti i, .setx x] { s with crcWidth := w, crcPoly := p, rsps := s.rsps ++ [0] ++ [0] } :=
      runAll_cons rfl
    _ = runAll [.setx x]
        { s with crcWidth := w, crcPoly := p, crcInit := i, rsps := s.rsps ++ [0] ++ [0] ++ [0] } := runAll_cons rfl
    _ = runAll [] { s with
        crcWidth := w, crcPoly := p, crcInit := i, crcXorout := x,
        rsps := s.rsps ++ [0] ++ [0] ++ [0] ++ [0] } := runAll_cons rfl
    _ = _ := by simp

/-- A read that succeeds, given alone (R123). -/
theorem runAll_rd {s : State} {a : BitVec 16} {v : Long} (h : memRead s.toBlock a = some v) :
    runAll [.rd a] s = .next { s with rsps := s.rsps ++ [0#8 ++ v] } :=
  runAll_cons (t := respond okCode v s) (execRd_some h)

/-- Settles O51: the sequence of `CRCCFG` command by command, and the reads of `CRC_RESULT` and `STATUS`. -/
theorem configurationAndReadPseudoInstructions : Obligations.ConfigurationAndReadPseudoInstructions :=
  fun s _ p i x => ⟨fun hw => runAll_crccfg s hw p i x, runAll_rd rfl, runAll_rd rfl⟩

end Sys2Proof.Machine
end

section
/-! The configuration commands (spec 40_config R80 to R84): the words that carry them, and what they answer. -/

namespace Sys2Proof

/-- A command word written field by field: zeros between the operation code and the operand are the operand extended
to the whole of `arg` (R61). -/
theorem append_zeros_append {k n : Nat} (hkn : 8 + k + n = 40) (op : BitVec 8) (v : BitVec n) :
    (op ++ 0#k ++ v).cast hkn = op ++ v.setWidth 32 := by
  have hk : k + n = 32 := by omega
  have hv : (v.setWidth 32).toNat = v.toNat := BitVec.toNat_setWidth_of_le (by omega)
  apply BitVec.eq_of_toNat_eq
  calc ((op ++ 0#k ++ v).cast hkn).toNat
    _ = op.toNat <<< 32 ||| v.toNat := by simp [← Nat.shiftLeft_add, hk]
    _ = (op ++ v.setWidth 32).toNat := by rw [BitVec.toNat_append, hv]

/-- The word made of a command's operation code, zeros and the command's operand decodes to the command (R61, R69). -/
theorem decode_append_zeros_append {k n : Nat} (hkn : 8 + k + n = 40) {i : Instr} {v : BitVec n}
    (harg : argOf i = v.setWidth 32) : decode ((opcodeOf i ++ 0#k ++ v).cast hkn) = .instr i := by
  rw [append_zeros_append, ← harg]
  exact decode_encode i

end Sys2Proof

namespace Sys2Proof.Machine

open Sys2Proof

theorem mem_legalWidths_iff (w : BitVec 6) : w ∈ Config.legalWidths ↔ w = 8 ∨ w = 16 ∨ w = 24 ∨ w = 32 := by
  simp

theorem exec_setw_legal {w : BitVec 6} (hw : w ∈ Config.legalWidths) (s : State) :
    exec (.setw w) s = .next (answered s 0x00 0 { s.toBlock with crcWidth := w }) := if_pos hw

theorem exec_setw_illegal {w : BitVec 6} (hw : w ∉ Config.legalWidths) (s : State) :
    exec (.setw w) s = .next (answered s 0x02 0 { s.toBlock with errFlags := s.errFlags ||| 0x04 }) := if_neg hw

/-- Settles O22: the four widths are the legal ones, and `SETW` has one outcome for those and one for the others. -/
theorem setwTakesLegalWidthsOnly : Obligations.SetwTakesLegalWidthsOnly := by
  refine ⟨by decide, fun s w => ⟨?_, fun hw => ?_, fun hw => ?_⟩⟩
  · exact decode_append_zeros_append (k := 26) rfl (i := .setw w) rfl
  · exact exec_setw_legal ((mem_legalWidths_iff w).2 hw) s
  · exact exec_setw_illegal (by simpa only [mem_legalWidths_iff, not_or] using hw) s

/-- Settles O23: a 32-bit operand is the whole argument of the encoding, `SETF`'s is extended by zeros; each
command's meaning is its one write. -/
theorem configurationCommandsStoreTheirOperand : Obligations.ConfigurationCommandsStoreTheirOperand := by
  refine fun s v f => ⟨⟨?setp, rfl⟩, ⟨?seti, rfl⟩, ⟨?setx, rfl⟩, ⟨?setf, rfl⟩⟩
  case setp => exact decode_encode (.setp v)
  case seti => exact decode_encode (.seti v)
  case setx => exact decode_encode (.setx v)
  case setf => exact decode_append_zeros_append (k := 29) rfl (i := .setf f) rfl

end Sys2Proof.Machine
end

section
/-! The CRC engine bit by bit (spec 41_crc R90, R91), and the consequences R94 draws from it. -/

namespace Sys2Proof.Machine

open Sys2Proof

theorem getLsbD_shiftLeft_one {i : Nat} (hi : i < 32) (r : Long) :
    (r <<< 1).getLsbD i = (decide (0 < i) && r.getLsbD (i - 1)) := by
  rw [BitVec.getLsbD_shiftLeft]
  cases i <;> simp only [hi, decide_true, Bool.true_and] <;> rfl

/-- One pass of R90: bit `i` takes the bit below it, and the polynomial's bit when the top was 1. -/
theorem crcShift_getLsbD {i : Nat} (hi : i < 32) (W : Nat) (P r : Long) :
    (crcShift W P r).getLsbD i =
      (decide (i < W) && ((decide (0 < i) && r.getLsbD (i - 1)) ^^ (r.getLsbD (W - 1) && P.getLsbD i))) := by
  simp only [crcShift]
  cases r.getLsbD (W - 1) <;>
    simp only [reduceIte, Bool.false_eq_true, BitVec.getLsbD_xor, BitVec.getLsbD_and, getLsbD_shiftLeft_one hi,
      getLsbD_mask, hi, decide_true, Bool.true_and, Bool.false_and, Bool.xor_false, Bool.and_xor_distrib_left,
      Bool.and_comm]

theorem crcShift_xor (W : Nat) (P r t : Long) : crcShift W P (r ^^^ t) = crcShift W P r ^^^ crcShift W P t := by
  apply BitVec.eq_of_getLsbD_eq
  intro i hi
  simp only [BitVec.getLsbD_xor, crcShift_getLsbD hi, Bool.and_xor_distrib_left, Bool.and_xor_distrib_right,
    Bool.xor_assoc, Bool.xor_left_comm]

theorem crcShifts_xor (W : Nat) (P : Long) (n : Nat) (r t : Long) :
    crcShifts W P n (r ^^^ t) = crcShifts W P n r ^^^ crcShifts W P n t := by
  induction n with
  | zero => rfl
  | succ n ih => simp only [crcShifts_succ', ih, crcShift_xor]

theorem crcStep_xor (W : Nat) (P r₁ r₂ : Long) (a b : Byte) :
    crcStep W P (r₁ ^^^ r₂) (a ^^^ b) = crcStep W P r₁ a ^^^ crcStep W P r₂ b := by
  have henter : r₁ ^^^ r₂ ^^^ (a ^^^ b).setWidth 32 = (r₁ ^^^ a.setWidth 32) ^^^ (r₂ ^^^ b.setWidth 32) := by
    rw [BitVec.setWidth_xor]; ac_rfl
  simp only [crcStep, henter, crcShifts_xor W P W (r₁ ^^^ _)]

/-- Settles O30: each pass is linear, and so is the byte entering the register. -/
theorem crcStepIsLinear : Obligations.CrcStepIsLinear := fun W P r₁ r₂ a b _ => (crcStep_xor W P r₁ r₂ a b).symm

/-- A sequence that makes one pass after another holds the result of `n` passes at its place `n`. -/
theorem crcShifts_eq_of_passes {W n : Nat} {P : Long} {x : Nat → Long}
    (h : ∀ k, k < n → x (k + 1) = crcShift W P (x k)) : crcShifts W P n (x 0) = x n := by
  induction n with
  | zero => rfl
  | succ n ih => rw [crcShifts_succ', ih fun k hk => h k (by omega), h n (by omega)]

/-- A sequence that takes one step for each element of a list ends in the list's fold. -/
theorem foldl_eq_of_steps {α β : Type} {f : β → α → β} {m : List α} {y : Nat → β}
    (h : ∀ j a, m[j]? = some a → y (j + 1) = f (y j) a) : m.foldl f (y 0) = y m.length := by
  induction m generalizing y with
  | nil => rfl
  | cons a m ih =>
    rw [List.foldl_cons, ← h 0 a rfl]
    exact ih (y := fun j => y (j + 1)) fun j c hj => h (j + 1) c hj

theorem crc_toNat_lt (W : Nat) (P I X : Long) (m : List Byte) : (crc W P I X m).toNat < 2 ^ W :=
  Nat.lt_pow_two_of_testBit _ fun _ hi => crc_getLsbD_of_ge hi P I X m

/-- Settles O26: the bits determine the start of each sequence and its next value, so it is the one the model
computes. -/
theorem crcIsTheSpecsDivision : Obligations.CrcIsTheSpecsDivision := by
  refine fun W P I X r b m hW => ⟨fun x hstart hpass => ?_, fun y hstart hstep i hi => ?_, crc_toNat_lt W P I X m⟩
  · have hx0 : x 0 = r ^^^ b.setWidth 32 := BitVec.eq_of_getLsbD_eq fun i hi => by
      simp only [hstart i hi, BitVec.getLsbD_xor, BitVec.getLsbD_setWidth, hi, decide_true, Bool.true_and]
    have hxs : ∀ k, k < W → x (k + 1) = crcShift W P (x k) := fun k hk =>
      BitVec.eq_of_getLsbD_eq fun i hi => by rw [hpass k i hk hi, crcShift_getLsbD hi]
    rw [crcStep, ← hx0, crcShifts_eq_of_passes hxs]
  · have hy0 : y 0 = I &&& mask W := BitVec.eq_of_getLsbD_eq fun i hi => by
      simp only [hstart i hi, BitVec.getLsbD_and, getLsbD_mask, hi, decide_true, Bool.true_and, Bool.and_comm]
    rw [crc_eq_foldl, ← hy0, foldl_eq_of_steps hstep]
    simp only [BitVec.getLsbD_and, BitVec.getLsbD_xor, getLsbD_mask, hi, decide_true, Bool.true_and, Bool.and_comm]

@[simp] theorem and_mask_and_mask (W : Nat) (r : Long) : r &&& mask W &&& mask W = r &&& mask W := by
  rw [BitVec.and_assoc, BitVec.and_self]

theorem xor_and_mask (W : Nat) (r t : Long) : (r ^^^ t) &&& mask W = (r &&& mask W) ^^^ (t &&& mask W) :=
  BitVec.eq_of_getLsbD_eq fun i _ => by
    simp only [BitVec.getLsbD_and, BitVec.getLsbD_xor, Bool.and_xor_distrib_right]

/-- The checksum of the empty message (R94). -/
theorem crc_nil (W : Nat) (P I X : Long) : crc W P I X [] = (I ^^^ X) &&& mask W := by
  rw [crc_eq_foldl, List.foldl_nil, xor_and_mask, xor_and_mask, and_mask_and_mask]

theorem crcShifts_maskedPoly (W : Nat) (P : Long) (n : Nat) (r : Long) :
    crcShifts W (P &&& mask W) n r = crcShifts W P n r := by
  induction n generalizing r with
  | zero => rfl
  | succ n ih => rw [crcShifts_succ, crcShifts_succ, ih, crcShift, crcShift, and_mask_and_mask]

theorem crcStep_maskedPoly (W : Nat) (P : Long) : crcStep W (P &&& mask W) = crcStep W P := by
  funext r b
  exact crcShifts_maskedPoly W P W _

/-- Settles O29: each use of a parameter masks it. -/
theorem crcUsesTheLowBitsOfItsParameters : Obligations.CrcUsesTheLowBitsOfItsParameters := by
  refine fun W P I X m _ => ⟨crc_nil W P I X, ?_⟩
  simp only [crc_eq_foldl, crcStep_maskedPoly, xor_and_mask, and_mask_and_mask]

theorem crcShift_zeroPoly {W : Nat} {P : Long} (hP : P &&& mask W = 0) (r : Long) :
    crcShift W P r = (r <<< 1) &&& mask W := by
  simp [crcShift, hP]

/-- With a polynomial that is zero below the width, `n` passes leave the `n` low bits 0: each shifts one more 0 in. -/
theorem crcShifts_getLsbD_of_lt {W n i : Nat} {P : Long} (hP : P &&& mask W = 0) (r : Long) (hi : i < n) :
    (crcShifts W P n r).getLsbD i = false := by
  induction n generalizing i with
  | zero => omega
  | succ n ih =>
    rw [crcShifts_succ', crcShift_zeroPoly hP, BitVec.getLsbD_and, BitVec.getLsbD_shiftLeft]
    obtain rfl | hpos := Nat.eq_zero_or_pos i
    · simp
    · rw [ih (by omega), Bool.and_false, Bool.false_and]

/-- A step under a polynomial that is zero below the width shifts the whole register out. -/
theorem crcStep_zeroPoly {W : Nat} {P : Long} (hW : W ≠ 0) (hP : P &&& mask W = 0) (r : Long) (b : Byte) :
    crcStep W P r b = 0 := by
  apply BitVec.eq_of_getLsbD_eq
  intro i _
  refine Eq.trans ?_ BitVec.getLsbD_zero.symm
  obtain hi | hi := lt_or_ge i W
  · exact crcShifts_getLsbD_of_lt hP _ hi
  · exact crcStep_getLsbD_of_ge hW hi P r b

/-- Settles O31: the step for the last byte leaves 0. -/
theorem crcOfZeroPolynomial : Obligations.CrcOfZeroPolynomial := by
  intro W P I X hW hP
  have hstep := crcStep_zeroPoly (by rintro rfl; simp at hW) hP
  refine ⟨hstep, fun m hm => ?_⟩
  obtain ⟨init, last, rfl⟩ := (List.eq_nil_or_concat m).resolve_left hm
  rw [crc_eq_foldl, List.concat_eq_append, List.foldl_append, List.foldl_cons, List.foldl_nil, hstep]
  exact congrArg (· &&& mask W) BitVec.zero_xor

theorem crcStep_and_mask {W : Nat} (hW : W ≠ 0) (P r : Long) (b : Byte) :
    crcStep W P r b &&& mask W = crcStep W P r b :=
  BitVec.eq_of_getLsbD_eq fun i hi => by
    rw [BitVec.getLsbD_and, getLsbD_mask]
    obtain hiW | hiW := lt_or_ge i W
    · simp only [hi, hiW, decide_true, Bool.and_true]
    · rw [crcStep_getLsbD_of_ge hW hiW, Bool.false_and]

/-- The running register of a message stays below `2^W` (R17). -/
theorem foldl_crcStep_and_mask {W : Nat} (hW : W ≠ 0) (P I : Long) (m : List Byte) :
    m.foldl (crcStep W P) (I &&& mask W) &&& mask W = m.foldl (crcStep W P) (I &&& mask W) := by
  obtain rfl | ⟨init, last, rfl⟩ := List.eq_nil_or_concat m
  · exact and_mask_and_mask W I
  · rw [List.concat_eq_append, List.foldl_append]
    exact crcStep_and_mask hW P _ last

/-- Taking the low byte and extending it again is masking to 8 bits. -/
theorem setWidth_byte_setWidth (r : Long) : (r.setWidth 8).setWidth 32 = r &&& mask 8 :=
  BitVec.eq_of_getLsbD_eq fun i hi => by
    simp only [BitVec.getLsbD_setWidth, BitVec.getLsbD_and, getLsbD_mask, hi, decide_true, Bool.true_and,
      Bool.and_comm]

theorem crcShifts_of_zero (W : Nat) (P : Long) (n : Nat) : crcShifts W P n 0 = 0 :=
  calc crcShifts W P n 0
    _ = crcShifts W P n 0 ^^^ crcShifts W P n 0 := crcShifts_xor W P n 0 0
    _ = 0 := BitVec.xor_self

/-- A register below `2^8` is cancelled by the byte it holds. -/
theorem crcStep_own_byte (W : Nat) (P : Long) {r : Long} (h : r &&& mask 8 = r) : crcStep W P r (r.setWidth 8) = 0 := by
  rw [crcStep, setWidth_byte_setWidth, h, BitVec.xor_self]
  exact crcShifts_of_zero W P W

/-- With a final XOR that is zero below the width, the checksum is the running register. -/
theorem crc_eq_register {W : Nat} (hW : W ≠ 0) (P I : Long) {X : Long} (hX : X &&& mask W = 0) (m : List Byte) :
    crc W P I X m = m.foldl (crcStep W P) (I &&& mask W) := by
  rw [crc_eq_foldl, xor_and_mask, foldl_crcStep_and_mask hW, hX]
  exact BitVec.xor_zero

/-- Settles O32: the checksum byte is the running register itself, and cancels it. -/
theorem crcOfMessageAndChecksumIsZero : Obligations.CrcOfMessageAndChecksumIsZero := by
  intro P I X m hX
  have hreg := crc_eq_register (show 8 ≠ 0 by decide) P I (show X &&& mask 8 = 0 from hX)
  rw [hreg, hreg, List.foldl_append, List.foldl_cons, List.foldl_nil]
  exact crcStep_own_byte 8 P (foldl_crcStep_and_mask (by decide) P I m)

end Sys2Proof.Machine
end

section
/-! The streamed CRC (spec 41_crc R92, R93): what its two commands leave, one at a time and in sequence, and the CRC
byte of a frame word (R96). -/

namespace Sys2Proof.Machine

open Sys2Proof

theorem exec_crcinit (s : State) :
    exec .crcinit s = .next (answered s 0x00 0 { s.toBlock with crcReg := s.crcInit &&& mask s.crcWidth.toNat }) := rfl

theorem exec_crcb (b : Byte) (s : State) :
    exec (.crcb b) s =
      .next (answered s 0x00 0 { s.toBlock with crcReg := crcStep s.crcWidth.toNat s.crcPoly s.crcReg b }) := rfl

/-- A command other than `RESET`, `CRCINIT` and `CRCB` keeps `CRC_REG` (R17). -/
theorem crcReg_of_exec {i : Instr} {s t : State} (h : exec i s = .next t) (hreset : i ≠ .reset)
    (hinit : i ≠ .crcinit) (hbyte : ∀ b, i ≠ .crcb b) : t.crcReg = s.crcReg := by
  by_contra hne
  obtain ⟨_, _, _, _, _, hreg⟩ := configurationIsWrittenByItsCommands i s t h hreset
  obtain rfl | ⟨b, rfl⟩ := hreg hne
  · exact hinit rfl
  · exact hbyte b rfl

/-- Settles O24: `CRC_RESULT` is the checksum of the empty message, and the commands that write `CRC_REG` are known. -/
theorem crcinitLoadsTheInitialValue : Obligations.CrcinitLoadsTheInitialValue := by
  refine ⟨decode_encode .crcinit, fun s => ⟨exec_crcinit s, fun t ht => ?_⟩⟩
  obtain rfl := Host.Outcome.next.inj ((exec_crcinit s).symm.trans ht)
  refine ⟨crc_nil s.crcWidth.toNat s.crcPoly s.crcInit s.crcXorout, fun v w u hu => ?_⟩
  obtain hu | hu := hu <;> exact crcReg_of_exec hu nofun nofun nofun

/-- Settles O25: the zeros before the byte are its extension to `arg`. -/
theorem crcbFeedsOneByte : Obligations.CrcbFeedsOneByte := fun s b =>
  ⟨decode_append_zeros_append (k := 24) rfl (i := .crcb b) rfl, exec_crcb b s⟩

/-- Under the reset parameters `fcrc` is two byte steps from `0xFF` (R96). -/
theorem fcrc_reset (b0 b1 : Byte) :
    fcrc State.reset.toBlock b0 b1 = (crcStep 8 0x31 (crcStep 8 0x31 0xFF b0) b1).setWidth 8 :=
  congrArg (BitVec.setWidth 8) (crc_eq_register (by decide) 0x31 0xFF (X := 0) rfl [b0, b1])

/-- With width 8 the byte `fcrc` takes is the whole checksum. -/
theorem setWidth_fcrc {b : Block} (hw : b.crcWidth = 8) (b0 b1 : Byte) :
    (fcrc b b0 b1).setWidth 32 = crc 8 b.crcPoly b.crcInit b.crcXorout [b0, b1] := by
  have hw8 : widthOf b = 8 := congrArg BitVec.toNat hw
  rw [fcrc, hw8, setWidth_byte_setWidth, crc_eq_foldl, and_mask_and_mask]

/-- Settles O27: the examples by the byte steps of the traces in 41_crc section 4, the rest by `setWidth_fcrc`. -/
theorem fcrcIsTheChecksumOfTwoBytes : Obligations.FcrcIsTheChecksumOfTwoBytes := by
  have hBE : crcStep 8 0x31 0xFF 0xBE = 0x0C := by decide
  have hEF : crcStep 8 0x31 0x0C 0xEF = 0x92 := by decide
  have h36 : crcStep 8 0x31 0xFF 0x36 = 0xCF := by decide
  have h08 : crcStep 8 0x31 0xCF 0x08 = 0xD0 := by decide
  refine ⟨?_, ?_, fun b b0 b1 hw => setWidth_fcrc hw b0 b1⟩
  · rw [fcrc_reset, hBE, hEF]; rfl
  · rw [fcrc_reset, h36, h08]; rfl

/-- One `CRCB` a byte folds the byte step over the bytes and answers OK each time. -/
theorem runAll_crcb (bytes : List Byte) (s : State) :
    runAll (bytes.map .crcb) s = .next { s with
      crcReg := bytes.foldl (crcStep s.crcWidth.toNat s.crcPoly) s.crcReg
      rsps := s.rsps ++ List.replicate bytes.length 0 } := by
  induction bytes generalizing s with
  | nil => simp
  | cons b bytes ih =>
    calc runAll ((b :: bytes).map .crcb) s
      _ = runAll (bytes.map .crcb)
            { s with crcReg := crcStep s.crcWidth.toNat s.crcPoly s.crcReg b, rsps := s.rsps ++ [0] } :=
          runAll_cons rfl
      _ = _ := by rw [ih]; simp [List.replicate_succ]

/-- Settles O33: `CRCINIT` starts the fold of `crc`, and the `CRCB`s are its steps. -/
theorem streamedCrcIsTheChecksum : Obligations.StreamedCrcIsTheChecksum := by
  intro s bytes
  refine ⟨bytes.foldl (crcStep s.crcWidth.toNat s.crcPoly) (s.crcInit &&& mask s.crcWidth.toNat), ?_, rfl⟩
  calc runAll (expand (.crcmsg bytes)) s
    _ = runAll (bytes.map .crcb)
          { s with crcReg := s.crcInit &&& mask s.crcWidth.toNat, rsps := s.rsps ++ [0] } :=
        runAll_cons rfl
    _ = _ := by rw [runAll_crcb]; simp [List.replicate_succ]

end Sys2Proof.Machine
end

section
/-! The encoder (spec 42_encode R100 to R105): what `TXCLR`, `TXOPC` and `TXW` leave, the bytes of a frame by position,
and the three outcomes of `ENC`. -/

namespace Sys2Proof.Machine

open Sys2Proof

/-- No element of an empty array register is readable (R51). -/
@[simp] theorem readElem_count_zero {w n : Nat} (xs : Vector (BitVec w) n) (i : Nat) : readElem xs 0 i = none :=
  if_neg (Nat.not_lt_zero i)

theorem exec_txclr (s : State) :
    exec .txclr s = .next (answered s 0x00 0 { s.toBlock with txOpcp := 0, txOpc := 0, txNw := 0 }) := rfl

/-- Settles O34: the count of the words is 0 afterwards, and clearing a clear command rewrites its own values. -/
theorem txclrEmptiesTheCommand : Obligations.TxclrEmptiesTheCommand := by
  refine ⟨decode_encode .txclr, fun s => ⟨exec_txclr s, ?_, fun t a ht ha => ?_⟩⟩
  · rintro ⟨hp, ho, hn⟩
    rw [exec_txclr, ← hp, ← ho, ← hn]
  · obtain rfl := Host.Outcome.next.inj ((exec_txclr s).symm.trans ht)
    rw [memRead_txw _ ha]
    exact readElem_count_zero _ _

/-- Settles O35: the operand is the low half of `arg`, and the meaning is the two writes. -/
theorem txopcGivesTheOpcode : Obligations.TxopcGivesTheOpcode := fun _ h =>
  ⟨decode_append_zeros_append (k := 16) rfl (i := .txopc h) rfl, rfl⟩

/-- An index below the size is in bounds. -/
theorem setIfInBounds_of_lt {α : Type} {n i : Nat} (xs : Vector α n) (h : i < n) (v : α) :
    xs.setIfInBounds i v = xs.set i v h :=
  Vector.ext fun j hj => by rw [Vector.getElem_setIfInBounds hj, Vector.getElem_set]

theorem exec_txw_full {s : State} (hfull : s.txNw.toNat = 16) (h : Word) :
    exec (.txw h) s = .next (answered s 0x04 0 { s.toBlock with errFlags := s.errFlags ||| 0x10 }) := if_pos hfull

theorem exec_txw_room {s : State} (room : s.txNw.toNat < 16) (h : Word) :
    exec (.txw h) s = .next (answered s 0x00 0
      { s.toBlock with txw := s.txw.set s.txNw.toNat h, txNw := s.txNw + 1 }) := by
  rw [← setIfInBounds_of_lt]
  exact if_neg room.ne

/-- Settles O36: the word goes to the index that the count is, which does not wrap below sixteen. -/
theorem txwAppendsOneWord : Obligations.TxwAppendsOneWord := by
  refine fun s h => ⟨?decode, fun hfull => exec_txw_full hfull h, fun room => ⟨exec_txw_room room h, fun t ht => ?_⟩⟩
  case decode => exact decode_append_zeros_append (k := 16) rfl (i := .txw h) rfl
  obtain rfl := Host.Outcome.next.inj ((exec_txw_room room h).symm.trans ht)
  obtain ⟨hcount, -⟩ := toNat_add_one_le (by decide) room.le room.ne
  refine ⟨hcount, ?_⟩
  calc validElems (s.txw.set s.txNw.toNat h) (s.txNw + 1).toNat
    _ = validElems (s.txw.setIfInBounds s.txNw.toNat h) (s.txNw.toNat + 1) := by
        rw [hcount, ← setIfInBounds_of_lt]
    _ = txWords s.toBlock ++ [h] := validElems_append _ _ _ room

theorem nothingToSend_of_present {b : Block} (h : b.txOpcp = 1 ∨ 0 < b.txNw.toNat) : nothingToSend b = false := by
  rw [Bool.eq_false_iff, ne_eq, nothingToSend_iff]
  rintro ⟨hp, hn⟩
  simp [hp, hn] at h

/-- A command that `ENC` refuses is not empty: the two outcomes of R103 without a frame exclude each other. -/
theorem nothingToSend_of_encRefused {b : Block} (h : encRefused b = true) : nothingToSend b = false := by
  obtain ⟨hn, -⟩ | ⟨hp, -⟩ := (encRefused_iff b).1 h
  · exact nothingToSend_of_present (.inr (BitVec.toNat_pos_of_ne_zero hn))
  · exact nothingToSend_of_present (.inl hp)

/-- Settles O37: `execEnc_noWrite` and `execEnc_refused` under the spec's conditions. -/
theorem encAnswersNoWriteOrRefuses : Obligations.EncAnswersNoWriteOrRefuses := by
  refine fun s => ⟨fun hnone => execEnc_noWrite ((nothingToSend_iff _).2 hnone), fun hbad => ?_⟩
  have hr : encRefused s.toBlock = true := (encRefused_iff _).2 hbad
  exact execEnc_refused (nothingToSend_of_encRefused hr) hr

/-! The bytes of a frame by position (R104). -/

theorem opcodeBytes_length (b : Block) :
    (opcodeBytes b).length = if b.txOpcp = 0 then 0 else if b.frmCfg.getLsbD 1 then 2 else 1 := by
  unfold opcodeBytes opc2On
  split <;> [rfl; split <;> rfl]

theorem opcodeBytes_of_length_two {b : Block} (h : (opcodeBytes b).length = 2) :
    opcodeBytes b = [hiByte b.txOpc, loByte b.txOpc] := by
  unfold opcodeBytes at h ⊢
  split_ifs at h ⊢ <;> simp_all

theorem opcodeBytes_of_length_one {b : Block} (h : (opcodeBytes b).length = 1) :
    opcodeBytes b = [loByte b.txOpc] := by
  unfold opcodeBytes at h ⊢
  split_ifs at h ⊢ <;> simp_all

/-- Every word before the `i`-th takes three bytes. -/
theorem flatMap_wordTriple_getElem? (b : Block) {ws : List Word} {i k : Nat} {w : Word} (hw : ws[i]? = some w)
    (hk : k < 3) : (ws.flatMap (wordTriple b))[3 * i + k]? = (wordTriple b w)[k]? := by
  induction ws generalizing i with
  | nil => simp at hw
  | cons v ws ih =>
    have hv : (wordTriple b v).length = 3 := rfl
    rw [List.flatMap_cons]
    cases i with
    | zero =>
      obtain rfl : v = w := by simpa using hw
      rw [Nat.mul_zero, Nat.zero_add, List.getElem?_append_left (hv ▸ hk)]
    | succ i =>
      rw [List.getElem?_append_right (by omega), hv, show 3 * (i + 1) + k - 3 = 3 * i + k by omega,
        ih (by simpa using hw)]

/-- The opcode's bytes come first. -/
theorem frameBytes_getElem?_opcode {b : Block} {j : Nat} (h : j < (opcodeBytes b).length) :
    (frameBytes b)[j]? = (opcodeBytes b)[j]? := List.getElem?_append_left h

theorem frameBytes_getElem?_word {b : Block} {i k : Nat} {w : Word} (hw : (txWords b)[i]? = some w) (hk : k < 3) :
    (frameBytes b)[(opcodeBytes b).length + 3 * i + k]? = (wordTriple b w)[k]? := by
  rw [frameBytes, Nat.add_assoc, List.getElem?_append_right (Nat.le_add_right _ _), Nat.add_sub_cancel_left,
    flatMap_wordTriple_getElem? b hw hk]

/-- The bytes of a word in the frame in the order `WLE` says (R41, R103). -/
theorem wordTriple_eq (b : Block) (w : Word) (b0 b1 : Byte)
    (h0 : b0 = if b.frmCfg.getLsbD 2 then w.extractLsb' 0 8 else w.extractLsb' 8 8)
    (h1 : b1 = if b.frmCfg.getLsbD 2 then w.extractLsb' 8 8 else w.extractLsb' 0 8) :
    wordTriple b w = [b0, b1, fcrc b b0 b1] := by
  subst h0 h1
  unfold wordTriple pack wleOn
  split <;> rfl

/-- What `ENC` puts in `TXBUF` is the frame, which fits. -/
theorem writeFrom_frameBytes_getElem? (b : Block) (xs : Vector Byte Config.txbMax) {j : Nat}
    (h : j < (frameBytes b).length) : (writeFrom xs 0 (frameBytes b))[j]? = (frameBytes b)[j]? := by
  have hle := frameBytes_length_le b
  rw [writeFrom_getElem?, if_pos ⟨Nat.zero_le j, by omega, h.trans_le hle⟩, Nat.sub_zero]

/-- The two `E_CONFIG` cases excluded, with a word known by the count (R103). -/
theorem encRefused_of_encodable {b : Block} (hwidth : 0 < b.txNw.toNat → b.crcWidth = 8)
    (hopc : b.txOpcp = 1 → b.frmCfg.getLsbD 1 = false → b.txOpc.toNat ≤ 0xFF) : encRefused b = false := by
  rw [Bool.eq_false_iff, ne_eq, encRefused_iff]
  rintro (⟨hn, hw⟩ | ⟨hp, hone, hbig⟩)
  · exact hw (hwidth (BitVec.toNat_pos_of_ne_zero hn))
  · exact absurd (hopc hp hone) (Nat.not_le.2 hbig)

/-- Settles O38: the outcome by `execEnc_frame`, the bytes of `TXBUF` by their position in `frameBytes`. -/
theorem encWritesTheFrame : Obligations.EncWritesTheFrame := by
  rintro s o _ ho rfl hle hsend hwidth hopc
  have hn : nothingToSend s.toBlock = false := nothingToSend_of_present hsend
  have hr : encRefused s.toBlock = false := encRefused_of_encodable hwidth hopc
  have hlen : (frameBytes s.toBlock).length = o + 3 * s.txNw.toNat := by
    rw [frameBytes_length, ← ho, min_eq_left hle]
  have hopclen : (opcodeBytes s.toBlock).length = o := (opcodeBytes_length _).trans ho.symm
  have hbuf {j : Nat} (hj : j < o + 3 * s.txNw.toNat) :=
    writeFrom_frameBytes_getElem? s.toBlock s.txBuf (hlen.symm ▸ hj)
  refine ⟨writeFrom s.txBuf 0 (frameBytes s.toBlock), ?exec, fun h2 => ?opc2, fun h1 => ?opc1, ?words⟩
  case exec => rw [← hlen]; exact execEnc_frame hn hr
  case opc2 =>
    rw [hbuf (by omega), hbuf (by omega), frameBytes_getElem?_opcode (by omega),
      frameBytes_getElem?_opcode (by omega), opcodeBytes_of_length_two (hopclen.trans h2)]
    exact ⟨rfl, rfl⟩
  case opc1 =>
    rw [hbuf (by omega), frameBytes_getElem?_opcode (by omega), opcodeBytes_of_length_one (hopclen.trans h1)]
    rfl
  case words =>
    intro i w hi hw b0 b1
    have hword : (txWords s.toBlock)[i]? = some w := by
      rw [txWords, validElems_getElem?, if_pos hi, hw]
    have hbyte {k : Nat} (hk : k < 3) :
        (writeFrom s.txBuf 0 (frameBytes s.toBlock))[o + 3 * i + k]? = [b0, b1, fcrc s.toBlock b0 b1][k]? := by
      rw [hbuf (by omega), ← hopclen, frameBytes_getElem?_word hword hk, wordTriple_eq _ w b0 b1 rfl rfl]
    exact ⟨hbyte (k := 0) (by decide), hbyte (k := 1) (by decide), hbyte (k := 2) (by decide)⟩

end Sys2Proof.Machine
end

section
/-! The received bytes (spec 43_decode R110, R111): what `RXCLR` and `RXB` leave. -/

namespace Sys2Proof.Machine

open Sys2Proof

theorem exec_rxclr (s : State) : exec .rxclr s = .next (answered s 0x00 0 { s.toBlock with rxLen := 0 }) := rfl

/-- Settles O40: the count of the received bytes is 0 afterwards, so none of their range is readable. -/
theorem rxclrEmptiesTheReceivedBytes : Obligations.RxclrEmptiesTheReceivedBytes := by
  refine ⟨decode_encode .rxclr, fun s => ⟨exec_rxclr s, fun t a ht ha => ?_⟩⟩
  obtain rfl := Host.Outcome.next.inj ((exec_rxclr s).symm.trans ht)
  rw [memRead_rxBuf _ ha]
  exact readElem_count_zero _ _

theorem exec_rxb_full {s : State} (hfull : s.rxLen.toNat = 48) (b : Byte) :
    exec (.rxb b) s = .next (answered s 0x04 0 { s.toBlock with errFlags := s.errFlags ||| 0x10 }) := if_pos hfull

theorem exec_rxb_room {s : State} (room : s.rxLen.toNat < 48) (b : Byte) :
    exec (.rxb b) s = .next (answered s 0x00 0
      { s.toBlock with rxBuf := s.rxBuf.setIfInBounds s.rxLen.toNat b, rxLen := s.rxLen + 1 }) := if_neg room.ne

/-- Settles O41: the byte goes to the index that the count is, which does not wrap below 48. -/
theorem rxbAppendsOneByte : Obligations.RxbAppendsOneByte := by
  refine fun s b => ⟨?decode, fun hfull => exec_rxb_full hfull b, fun room => ?room⟩
  case decode => exact decode_append_zeros_append (k := 24) rfl (i := .rxb b) rfl
  case room =>
    rw [exec_rxb_room room, ← setIfInBounds_of_lt]
    refine ⟨rfl, fun t ht => ?_⟩
    obtain rfl := Host.Outcome.next.inj ht
    obtain ⟨hcount, -⟩ := toNat_add_one_le (by decide) room.le room.ne
    refine ⟨hcount, ?_⟩
    calc validElems (s.rxBuf.setIfInBounds s.rxLen.toNat b) (s.rxLen + 1).toNat
      _ = validElems (s.rxBuf.setIfInBounds s.rxLen.toNat b) (s.rxLen.toNat + 1) := by rw [hcount]
      _ = rxBytes s.toBlock ++ [b] := validElems_append _ _ _ room

end Sys2Proof.Machine
end

section
/-! The outcomes of `DEC` (spec 43_decode R112, R113) by what the received bytes are. -/

namespace Sys2Proof.Machine

open Sys2Proof

variable {s : State}

/-- Settles O42: `execDec_noData`, `execDec_config` and `execDec_length` under the spec's conditions. -/
theorem decTestsDataConfigurationLength : Obligations.DecTestsDataConfigurationLength := by
  refine fun s => ⟨fun h0 => execDec_noData h0, fun ⟨h0, hcrc, hw⟩ => execDec_config h0 hcrc hw, ?_⟩
  exact fun ⟨h0, hw, hm⟩ => execDec_length h0 (fun ⟨hcrc, hne⟩ => hne (hw hcrc)) hm

/-- Received bytes are counted. -/
theorem rxLen_ne_zero {b : Block} (h : rxBytes b ≠ []) : b.rxLen ≠ 0 :=
  fun h0 => h (by rw [rxBytes, h0]; rfl)

theorem decodeBlocks_crcOn {b : Block} (h : rxCrcOn b = true) : decodeBlocks b = decodeTriples b 0 (rxBytes b) :=
  if_pos h

theorem decodeBlocks_crcOff {b : Block} (h : rxCrcOn b = false) : decodeBlocks b = (decodePairs b (rxBytes b), none) :=
  if_neg (Bool.not_eq_true _ ▸ h)

/-- Whole blocks without a wrong CRC byte: `DEC` gives the words of their loop (R112). -/
theorem exec_dec_wholeBlocks {ws : List Word} (hle : s.rxLen.toNat ≤ 48)
    (hc : ¬ (rxCrcOn s.toBlock = true ∧ s.crcWidth ≠ 8)) (hne : ws ≠ [])
    (hlen : (rxBytes s.toBlock).length = blockSize s.toBlock * ws.length)
    (hd : decodeBlocks s.toBlock = (ws, none)) :
    exec .dec s = .next (answered s 0x00 0
        { s.toBlock with rxw := writeFrom s.rxw 0 ws, rxNw := BitVec.ofNat 5 ws.length, rxRes := 1 }) ∧
      (writeFrom s.rxw 0 ws).toList.take ws.length = ws := by
  have hpos : 0 < blockSize s.toBlock := by obtain h | h := blockSize_eq s.toBlock <;> omega
  have hbytes : s.rxLen.toNat = blockSize s.toBlock * ws.length := by rw [← hlen, rxBytes_length, min_eq_left hle]
  have hblocks : s.rxLen.toNat / blockSize s.toBlock = ws.length := by rw [hbytes, Nat.mul_div_cancel_left _ hpos]
  have h0 : s.rxLen ≠ 0 := by
    refine rxLen_ne_zero fun hnil => ?_
    rw [hnil, List.length_nil, eq_comm, Nat.mul_eq_zero] at hlen
    exact hlen.elim hpos.ne' (hne ∘ List.eq_nil_of_length_eq_zero)
  have hexec := execDec_words h0 hc (by rw [hbytes, Nat.mul_mod_right]) (congrArg Prod.snd hd)
  rw [hd, hblocks] at hexec
  exact ⟨hexec, validElems_writeFrom _ _ (hblocks ▸ blocks_le hle)⟩

/-- Settles O43: good triples are passed over whole, to the end of the received bytes. -/
theorem decGivesTheWordsOfGoodTriples : Obligations.DecGivesTheWordsOfGoodTriples := by
  intro s blocks hle hcrc hw hne hbytes
  change rxBytes s.toBlock = goodTriples s.toBlock blocks at hbytes
  have hsize : blockSize s.toBlock = 3 := if_pos hcrc
  have hd : decodeBlocks s.toBlock = (blocks.map fun p => unpack (wleOn s.toBlock) p.1 p.2, none) := by
    have hgood := decodeTriples_good s.toBlock blocks 0 []
    rw [List.append_nil] at hgood
    rw [decodeBlocks_crcOn hcrc, hbytes, hgood]
    simp [decodeTriples]
  have hexec := exec_dec_wholeBlocks hle (fun h => h.2 hw) (by simpa using hne) (by simp [hbytes, hsize]) hd
  rw [List.length_map] at hexec
  exact ⟨_, hexec⟩

/-- Settles O44: the loop without CRC bytes turns the pairs into words one by one. -/
theorem decGivesTheWordsOfPairs : Obligations.DecGivesTheWordsOfPairs := by
  intro s blocks hle hcrc hne hbytes
  have hoff : ¬ rxCrcOn s.toBlock = true := Bool.eq_false_iff.1 hcrc
  have hsize : blockSize s.toBlock = 2 := if_neg hoff
  have hd : decodeBlocks s.toBlock = (blocks.map fun p => unpack (wleOn s.toBlock) p.1 p.2, none) := by
    rw [decodeBlocks_crcOff hcrc, hbytes, decodePairs_pairs]
  have hexec := exec_dec_wholeBlocks hle (fun h => hoff h.1) (by simpa using hne) (by simp [hbytes, hsize]; omega) hd
  rw [List.length_map] at hexec
  exact ⟨_, hexec⟩

/-- The response to a wrong CRC byte is its payload with a zero byte above (R136). -/
theorem setWidth_checksumPayload (k : Nat) (exp rcv : Byte) :
    (checksumPayload k exp rcv).setWidth 32 = 0#8 ++ BitVec.ofNat 8 k ++ exp ++ rcv := by
  simp only [BitVec.setWidth_eq_append (show 24 ≤ 32 by decide), checksumPayload, BitVec.append_assoc, BitVec.cast_eq]

/-- Settles O45: the good triples before the wrong one are passed over and counted. -/
theorem decReportsTheFirstWrongCrc : Obligations.DecReportsTheFirstWrongCrc := by
  intro s good b0 b1 rcv rest hcrc hw hm hbytes hwrong
  change rxBytes s.toBlock = goodTriples s.toBlock good ++ _ at hbytes
  have hsize : blockSize s.toBlock = 3 := if_pos hcrc
  have h0 : s.rxLen ≠ 0 := rxLen_ne_zero (by simp [hbytes])
  have hd : (decodeBlocks s.toBlock).2 = some (checksumPayload good.length (fcrc s.toBlock b0 b1) rcv) := by
    rw [decodeBlocks_crcOn hcrc, hbytes, decodeTriples_good, decodeTriples_wrong _ _ _ _ _ _ hwrong, Nat.zero_add]
  have hexec := execDec_checksum h0 (fun h => h.2 hw) (hsize.symm ▸ hm) hd
  rw [setWidth_checksumPayload] at hexec
  exact ⟨_, hexec⟩

end Sys2Proof.Machine
end

section
/-! The framing pseudo-instructions (spec 30_encoding R68): the sequences of `FRAME.N`, `FRAME.O` and `PARSE` come down
to one `ENC` or `DEC` on what they loaded. -/

namespace Sys2Proof.Machine

open Sys2Proof

/-- A command does not look at the commands to come (R48). -/
theorem exec_presentAll {i : Instr} {s t : State} (h : exec i s = .next t) (is : List Instr) :
    exec i (presentAll is s) = .next (presentAll is t) := by
  have ht {u : State} (hu : exec i s = .next u) : u = t := Host.Outcome.next.inj (hu.symm.trans h)
  cases i
  case rd a =>
    obtain ⟨v, hv, hu⟩ | ⟨hv, hu⟩ := execRd_cases a s <;> obtain rfl := ht hu
    · exact execRd_some (s := presentAll is s) hv
    · exact execRd_none (s := presentAll is s) hv
  case setw w =>
    obtain ⟨hw, hu⟩ | ⟨hw, hu⟩ := execSetw_cases w s <;> obtain rfl := ht hu
    · exact exec_setw_legal hw _
    · exact exec_setw_illegal hw _
  case txw w =>
    obtain ⟨hn, hu⟩ | ⟨hn, hu⟩ := execTxw_cases w s <;> obtain rfl := ht hu
    · exact if_pos hn
    · exact if_neg hn
  case rxb b =>
    obtain ⟨hn, hu⟩ | ⟨hn, hu⟩ := execRxb_cases b s <;> obtain rfl := ht hu
    · exact if_pos hn
    · exact if_neg hn
  case enc =>
    obtain ⟨hn, hu⟩ | ⟨hn, hr, hu⟩ | ⟨hn, hr, hu⟩ := execEnc_cases s <;> obtain rfl := ht hu
    · exact execEnc_noWrite (s := presentAll is s) hn
    · exact execEnc_refused (s := presentAll is s) hn hr
    · exact execEnc_frame (s := presentAll is s) hn hr
  case dec =>
    obtain ⟨h0, hu⟩ | ⟨h0, hc, hw, hu⟩ | ⟨h0, hc, hm, hu⟩ | ⟨h0, hc, hm, info, hd, hu⟩ | ⟨h0, hc, hm, hd, hu⟩ :=
      execDec_cases s <;> obtain rfl := ht hu
    · exact execDec_noData (s := presentAll is s) h0
    · exact execDec_config (s := presentAll is s) h0 hc hw
    · exact execDec_length (s := presentAll is s) h0 hc hm
    · exact execDec_checksum (s := presentAll is s) h0 hc hm hd
    · exact execDec_words (s := presentAll is s) h0 hc hm hd
  all_goals obtain rfl := ht rfl; rfl

theorem runAll_cons_of_exec {i : Instr} {s t : State} (h : exec i s = .next t) (is : List Instr) :
    runAll (i :: is) s = runAll is t := runAll_cons (exec_presentAll h is)

theorem runAll_singleton (i : Instr) (s : State) : runAll [i] s = exec i s := by
  obtain ⟨t, ht, -⟩ := exec_has_effect i s
  rw [runAll_cons_of_exec ht, runAll_nil, ht]

theorem add_one_add_ofNat {w : Nat} (x : BitVec w) (k : Nat) :
    x + 1 + BitVec.ofNat w k = x + BitVec.ofNat w (k + 1) := by
  rw [BitVec.ofNat_add, BitVec.add_comm (BitVec.ofNat w k), ← BitVec.add_assoc]; rfl

/-- One command for each element of a list, before others: when a command on the first element leaves a state from
which loading the rest is loading the whole list, the commands load the list. -/
theorem runAll_map_append {α : Type} {f : α → Instr} {load : List α → State → State} {room : Nat → State → Prop}
    (hnil : ∀ s, load [] s = s)
    (hcons : ∀ a l s, room (l.length + 1) s → ∃ t, exec (f a) s = .next t ∧
      room l.length t ∧ load l t = load (a :: l) s)
    (l : List α) (is : List Instr) {s : State} (hroom : room l.length s) :
    runAll (l.map f ++ is) s = runAll is (load l s) := by
  induction l generalizing s with
  | nil => rw [hnil]; rfl
  | cons a l ih =>
    obtain ⟨t, hexec, hrest, hload⟩ := hcons a l s hroom
    calc runAll ((a :: l).map f ++ is) s
      _ = runAll (l.map f ++ is) t := runAll_cons_of_exec hexec _
      _ = runAll is (load (a :: l) s) := by rw [ih hrest, hload]

/-- The state after a `TXW` for each of the words, when there is room for them (R102). -/
def appendWords (words : List Word) (s : State) : State where
  toBlock := { s.toBlock with
    txw := writeFrom s.txw s.txNw.toNat words
    txNw := s.txNw + BitVec.ofNat 5 words.length }
  moves := s.moves
  rsps := s.rsps ++ List.replicate words.length 0

/-- The state after an `RXB` for each of the bytes, when there is room for them (R111). -/
def appendBytes (bytes : List Byte) (s : State) : State where
  toBlock := { s.toBlock with
    rxBuf := writeFrom s.rxBuf s.rxLen.toNat bytes
    rxLen := s.rxLen + BitVec.ofNat 6 bytes.length }
  moves := s.moves
  rsps := s.rsps ++ List.replicate bytes.length 0

theorem runAll_txw_append (words : List Word) (is : List Instr) {s : State}
    (room : s.txNw.toNat + words.length ≤ 16) :
    runAll (words.map .txw ++ is) s = runAll is (appendWords words s) := by
  refine runAll_map_append (room := fun n s => s.txNw.toNat + n ≤ 16) (fun s => ?_) (fun w ws s hs => ?_) words is room
  · simp [appendWords]
  · have hlt : s.txNw.toNat < 16 := by omega
    obtain ⟨hcount, -⟩ := toNat_add_one_le (by decide) hlt.le hlt.ne
    refine ⟨_, exec_txw_room hlt w, ?_, ?_⟩
    · change (s.txNw + 1).toNat + ws.length ≤ 16
      omega
    · simp only [appendWords, answered, ← setIfInBounds_of_lt, hcount, add_one_add_ofNat, writeFrom_cons]
      simp [List.replicate_succ]

theorem runAll_rxb_append (bytes : List Byte) (is : List Instr) {s : State}
    (room : s.rxLen.toNat + bytes.length ≤ 48) :
    runAll (bytes.map .rxb ++ is) s = runAll is (appendBytes bytes s) := by
  refine runAll_map_append (room := fun n s => s.rxLen.toNat + n ≤ 48) (fun s => ?_) (fun b bs s hs => ?_) bytes is room
  · simp [appendBytes]
  · have hlt : s.rxLen.toNat < 48 := by omega
    obtain ⟨hcount, -⟩ := toNat_add_one_le (by decide) hlt.le hlt.ne
    refine ⟨_, exec_rxb_room hlt b, ?_, ?_⟩
    · change (s.rxLen + 1).toNat + bs.length ≤ 48
      omega
    · simp only [appendBytes, answered, hcount, add_one_add_ofNat, writeFrom_cons]
      simp [List.replicate_succ]

/-! What is loaded into an empty array is what can be read of it. -/

theorem toNat_zero_add_ofNat {w k : Nat} (h : k < 2 ^ w) : (0 + BitVec.ofNat w k).toNat = k := by
  rw [zero_add, BitVec.toNat_ofNat, Nat.mod_eq_of_lt h]

theorem txNw_appendWords {s : State} (h0 : s.txNw = 0) {words : List Word} (hle : words.length ≤ 16) :
    (appendWords words s).txNw.toNat = words.length := by
  rw [appendWords, h0]
  exact toNat_zero_add_ofNat (by omega)

theorem txWords_appendWords {s : State} (h0 : s.txNw = 0) {words : List Word} (hle : words.length ≤ 16) :
    txWords (appendWords words s).toBlock = words := by
  rw [txWords, txNw_appendWords h0 hle, appendWords, h0]
  exact validElems_writeFrom _ _ hle

theorem rxLen_appendBytes {s : State} (h0 : s.rxLen = 0) {bytes : List Byte} (hle : bytes.length ≤ 48) :
    (appendBytes bytes s).rxLen.toNat = bytes.length := by
  rw [appendBytes, h0]
  exact toNat_zero_add_ofNat (by omega)

theorem rxBytes_appendBytes {s : State} (h0 : s.rxLen = 0) {bytes : List Byte} (hle : bytes.length ≤ 48) :
    rxBytes (appendBytes bytes s).toBlock = bytes := by
  rw [rxBytes, rxLen_appendBytes h0 hle, appendBytes, h0]
  exact validElems_writeFrom _ _ hle

/-! The pseudo-instructions (R68) up to their last command. -/

/-- The state after `TXCLR` (R100). -/
def txCleared (s : State) : State := answered s 0x00 0 { s.toBlock with txOpcp := 0, txOpc := 0, txNw := 0 }

/-- The state after `TXCLR` and `TXOPC` (R100, R101). -/
def txOpened (opc : Word) (s : State) : State :=
  answered (txCleared s) 0x00 0 { (txCleared s).toBlock with txOpc := opc, txOpcp := 1 }

/-- The state after `RXCLR` (R110). -/
def rxCleared (s : State) : State := answered s 0x00 0 { s.toBlock with rxLen := 0 }

theorem runAll_frameN {words : List Word} (hle : words.length ≤ 16) (s : State) :
    runAll (expand (.frameN words)) s = exec .enc (appendWords words (txCleared s)) :=
  calc runAll (expand (.frameN words)) s
    _ = runAll (words.map Instr.txw ++ [Instr.enc]) (txCleared s) := runAll_cons_of_exec (exec_txclr s) _
    _ = runAll [Instr.enc] (appendWords words (txCleared s)) :=
      runAll_txw_append words _ ((Nat.zero_add _).trans_le hle)
    _ = _ := runAll_singleton _ _

theorem runAll_frameO {words : List Word} (hle : words.length ≤ 16) (opc : Word) (s : State) :
    runAll (expand (.frameO opc words)) s = exec .enc (appendWords words (txOpened opc s)) :=
  calc runAll (expand (.frameO opc words)) s
    _ = runAll (Instr.txopc opc :: (words.map Instr.txw ++ [Instr.enc])) (txCleared s) :=
      runAll_cons_of_exec (exec_txclr s) _
    _ = runAll (words.map Instr.txw ++ [Instr.enc]) (txOpened opc s) := runAll_cons_of_exec rfl _
    _ = runAll [Instr.enc] (appendWords words (txOpened opc s)) :=
      runAll_txw_append words _ ((Nat.zero_add _).trans_le hle)
    _ = _ := runAll_singleton _ _

theorem runAll_parse {bytes : List Byte} (hle : bytes.length ≤ 48) (s : State) :
    runAll (expand (.parse bytes)) s = exec .dec (appendBytes bytes (rxCleared s)) :=
  calc runAll (expand (.parse bytes)) s
    _ = runAll (bytes.map Instr.rxb ++ [Instr.dec]) (rxCleared s) := runAll_cons_of_exec (exec_rxclr s) _
    _ = runAll [Instr.dec] (appendBytes bytes (rxCleared s)) :=
      runAll_rxb_append bytes _ ((Nat.zero_add _).trans_le hle)
    _ = _ := runAll_singleton _ _

/-- Settles O49: nothing is loaded, and `ENC` and `DEC` meet an empty command and no received byte. -/
theorem emptyRoundTripIsNoWriteAndNoData : Obligations.EmptyRoundTripIsNoWriteAndNoData := by
  intro s
  have henc := (runAll_frameN (words := []) (Nat.zero_le _) s).trans (execEnc_noWrite rfl)
  exact ⟨_, _, henc, rfl, rfl, (runAll_parse (bytes := []) (Nat.zero_le _) _).trans (execDec_noData rfl), rfl, rfl⟩

end Sys2Proof.Machine
end

section
/-! The round trips (spec 43_decode R114): the decoder gives back what the encoder put in the frame, and names the CRC
byte that was replaced. -/

namespace Sys2Proof.Machine

open Sys2Proof

/-! The responses `OK` of a whole sequence: the clearing command, the loading commands and the last one. -/

theorem append_ok_append_replicate (rs : List RspWord) (n : Nat) :
    rs ++ [0x00#8 ++ 0#32] ++ List.replicate n 0 = rs ++ List.replicate (n + 1) 0 := by
  rw [List.append_assoc]; rfl

theorem append_ok_append_replicate_append_ok (rs : List RspWord) (n : Nat) :
    rs ++ [0x00#8 ++ 0#32] ++ List.replicate n 0 ++ [0x00#8 ++ 0#32] = rs ++ List.replicate (n + 2) 0 := by
  rw [append_ok_append_replicate, List.append_assoc]
  exact congrArg _ List.replicate_succ'.symm

/-- `PARSE` of good triples gives their words (R112, R113). -/
theorem runAll_parse_goodTriples {t : State} {blocks : List (Byte × Byte)} (hne : blocks ≠ [])
    (hle : blocks.length ≤ 16) (hw : t.crcWidth = 8) (hcrc : t.frmCfg.getLsbD 0 = true) :
    ∃ u, runAll (expand (.parse (goodTriples t.toBlock blocks))) t = .next u ∧ u.rxRes = 1 ∧
      u.rxNw.toNat = blocks.length ∧
      rxWords u.toBlock = blocks.map (fun p => unpack (wleOn t.toBlock) p.1 p.2) ∧
      u.rsps = t.rsps ++ List.replicate (3 * blocks.length + 2) 0 := by
  have hlen : (goodTriples t.toBlock blocks).length ≤ 48 := by rw [goodTriples_length]; omega
  have hcount := rxLen_appendBytes (s := rxCleared t) rfl hlen
  have hbytes := rxBytes_appendBytes (s := rxCleared t) rfl hlen
  obtain ⟨ws, hdec, hws⟩ := decGivesTheWordsOfGoodTriples _ blocks (hcount.trans_le hlen) hcrc hw hne hbytes
  have hnw : (BitVec.ofNat 5 blocks.length).toNat = blocks.length := Nat.mod_eq_of_lt (by omega)
  refine ⟨_, (runAll_parse hlen t).trans hdec, rfl, hnw, ?_, ?_⟩
  · change ws.toList.take (BitVec.ofNat 5 blocks.length).toNat = _
    rw [hnw, hws]
    rfl
  · change t.rsps ++ [0x00#8 ++ 0#32] ++ List.replicate _ 0 ++ [0x00#8 ++ 0#32] = _
    rw [append_ok_append_replicate_append_ok, goodTriples_length]

/-! The encoder's frame is what the decoder takes back. -/

/-- Behind the opcode, a frame is the good triples of its words' bytes (R104, R113). -/
theorem frameBytes_eq (b : Block) :
    frameBytes b = opcodeBytes b ++ goodTriples b ((txWords b).map (pack (wleOn b))) := by
  rw [frameBytes, goodTriples, List.flatMap_map]; rfl

/-- `ENC` of words it can encode: the frame, and nothing that framing reads is changed (R103). -/
theorem exec_enc_encodable {r : State} (hpos : 0 < r.txNw.toNat) (hw : r.crcWidth = 8)
    (hopc : r.txOpcp = 1 → r.frmCfg.getLsbD 1 = false → r.txOpc.toNat ≤ 0xFF) :
    ∃ t, exec .enc r = .next t ∧ t.toBlock.SameFraming r.toBlock ∧ t.txRes = 1 ∧
      t.txLen.toNat = (frameBytes r.toBlock).length ∧ txBytes t.toBlock = frameBytes r.toBlock ∧
      t.rsps = r.rsps ++ [0] := by
  have hn : nothingToSend r.toBlock = false := nothingToSend_of_present (.inr hpos)
  have hr : encRefused r.toBlock = false := encRefused_of_encodable (fun _ => hw) hopc
  exact ⟨_, execEnc_frame hn hr, Block.sameFraming_encResults _ _ _ _, rfl, toNat_frameBytes_length _,
    validElems_frame _ _, rfl⟩

/-- `PARSE` of the frame of the words held, without its opcode bytes, gives these words (R114). -/
theorem runAll_parse_frame {t : State} (hne : txWords t.toBlock ≠ []) (hle : (txWords t.toBlock).length ≤ 16)
    (hw : t.crcWidth = 8) (hcrc : t.frmCfg.getLsbD 0 = true) :
    ∃ u, runAll (expand (.parse ((frameBytes t.toBlock).drop (opcodeBytes t.toBlock).length))) t = .next u ∧
      u.rxRes = 1 ∧ u.rxNw.toNat = (txWords t.toBlock).length ∧ rxWords u.toBlock = txWords t.toBlock ∧
      u.rsps = t.rsps ++ List.replicate (3 * (txWords t.toBlock).length + 2) 0 := by
  have hparse := runAll_parse_goodTriples (t := t) (blocks := (txWords t.toBlock).map (pack (wleOn t.toBlock)))
    (by simpa using hne) (by simpa using hle) hw hcrc
  rw [frameBytes_eq, List.drop_left]
  simpa [Function.comp_def, unpack_pack] using hparse

theorem Block.SameFraming.opcodeBytes {b c : Block} (h : b.SameFraming c) :
    Machine.opcodeBytes b = Machine.opcodeBytes c := by
  rw [Machine.opcodeBytes, Machine.opcodeBytes, opc2On, opc2On, h.txOpcp, h.txOpc, h.frmCfg]

/-- `ENC`, then `PARSE` of the frame without its opcode bytes (R114). -/
theorem enc_then_parse_gives_words_back {r : State} {words : List Word} (hwords : txWords r.toBlock = words)
    (hnw : r.txNw.toNat = words.length) (hne : words ≠ []) (hle : words.length ≤ 16) (hw : r.crcWidth = 8)
    (hcrc : r.frmCfg.getLsbD 0 = true)
    (hopc : r.txOpcp = 1 → r.frmCfg.getLsbD 1 = false → r.txOpc.toNat ≤ 0xFF) :
    ∃ t u, exec .enc r = .next t ∧ t.txRes = 1 ∧ t.rsps = r.rsps ++ [0] ∧
      t.txLen.toNat = (opcodeBytes r.toBlock).length + 3 * words.length ∧
      (txBytes t.toBlock).take (opcodeBytes r.toBlock).length = opcodeBytes r.toBlock ∧
      runAll (expand (.parse ((txBytes t.toBlock).drop (opcodeBytes r.toBlock).length))) t = .next u ∧
      u.rxRes = 1 ∧ u.rxNw.toNat = words.length ∧ rxWords u.toBlock = words ∧
      u.rsps = t.rsps ++ List.replicate (3 * words.length + 2) 0 := by
  subst hwords
  obtain ⟨t, henc, hsame, hres, hlen, hbytes, hrsps⟩ :=
    exec_enc_encodable (hnw ▸ List.length_pos_iff.2 hne) hw hopc
  rw [← hsame.txWords] at hne hle
  obtain ⟨u, hparse, hu⟩ := runAll_parse_frame hne hle (hsame.crcWidth.trans hw) (hsame.frmCfg ▸ hcrc)
  rw [hsame.frameBytes, hsame.opcodeBytes, ← hbytes] at hparse
  rw [hsame.txWords] at hu
  refine ⟨t, u, henc, hres, hrsps, ?_, ?_, hparse, hu⟩
  · rw [hlen, frameBytes_eq]; simp
  · rw [hbytes, frameBytes_eq, List.take_left]

/-- Settles O47: without an opcode the whole frame is the words' triples. -/
theorem roundTripGivesTheWordsBack : Obligations.RoundTripGivesTheWordsBack := by
  intro s words hne hle hw hcrc
  obtain ⟨t, u, henc, hres, hrsps, hlen, -, hparse, hu⟩ :=
    enc_then_parse_gives_words_back (r := appendWords words (txCleared s)) (txWords_appendWords rfl hle)
      (txNw_appendWords rfl hle) hne hle hw hcrc nofun
  refine ⟨t, u, (runAll_frameN hle s).trans henc, hres, ?_, ?_, hparse, hu⟩
  · exact hlen.trans (Nat.zero_add _)
  · rw [hrsps]
    exact append_ok_append_replicate_append_ok _ _

/-- The opcode bytes of a command with an opcode (R103). -/
theorem opcodeBytes_of_present {b : Block} (h : b.txOpcp = 1) :
    opcodeBytes b = if b.frmCfg.getLsbD 1 then [b.txOpc.extractLsb' 8 8, b.txOpc.extractLsb' 0 8]
      else [b.txOpc.extractLsb' 0 8] := by
  rw [opcodeBytes, h]; rfl

/-- Settles O48: the opcode's bytes are dropped, and behind them is the frame without an opcode. -/
theorem roundTripBehindAnOpcode : Obligations.RoundTripBehindAnOpcode := by
  intro s opc words o hne hle hw hcrc ho hopc
  let r := appendWords words (txOpened opc s)
  have hopcode : opcodeBytes r.toBlock = if s.frmCfg.getLsbD 1 then [opc.extractLsb' 8 8, opc.extractLsb' 0 8]
      else [opc.extractLsb' 0 8] := opcodeBytes_of_present rfl
  have holen : (opcodeBytes r.toBlock).length = o := by rw [ho, hopcode]; split <;> rfl
  obtain ⟨t, u, henc, hres, -, hlen, htake, hparse, hwords, -, hu, -⟩ :=
    enc_then_parse_gives_words_back (r := r) (txWords_appendWords rfl hle) (txNw_appendWords rfl hle) hne hle hw hcrc
      fun _ => hopc
  rw [holen] at hlen htake hparse
  exact ⟨t, u, (runAll_frameO hle opc s).trans henc, hres, hlen, htake.trans hopcode, hparse, hwords, hu⟩

/-- A response word of five bytes, the code set apart from the data or not (R62). -/
theorem append_append_bytes (a b c d e : Byte) :
    (a ++ (b ++ c ++ d ++ e : BitVec 32) : BitVec 40) = a ++ b ++ c ++ d ++ e := by
  simp only [BitVec.append_assoc, BitVec.cast_eq]

/-- Settles O50: the block with the replaced byte is the first wrong one of what `PARSE` loads. -/
theorem corruptedCrcByteIsReported : Obligations.CorruptedCrcByteIsReported := by
  intro s before after b0 b1 v hroom hw hcrc hwrong triples
  change ∃ u, runAll (expand (.parse (goodTriples s.toBlock before ++ [b0, b1, v] ++ goodTriples s.toBlock after))) s
    = .next u ∧ _
  rw [List.append_assoc]
  set bytes := goodTriples s.toBlock before ++ ([b0, b1, v] ++ goodTriples s.toBlock after) with hdef
  have hlen : bytes.length = 3 * (before.length + after.length + 1) := by simp [hdef]; omega
  have hle : bytes.length ≤ 48 := by omega
  have hcount := rxLen_appendBytes (s := rxCleared s) rfl hle
  have hbytes := rxBytes_appendBytes (s := rxCleared s) rfl hle
  obtain ⟨ws, hdec⟩ := decReportsTheFirstWrongCrc (appendBytes bytes (rxCleared s)) before b0 b1 v
    (goodTriples s.toBlock after) hcrc hw (by rw [hcount, hlen, Nat.mul_mod_right]) hbytes hwrong
  refine ⟨_, (runAll_parse hle s).trans hdec, rfl, rfl, ?_⟩
  rw [answered_rsps, append_append_bytes]
  change s.rsps ++ [0x00#8 ++ 0#32] ++ List.replicate bytes.length 0 ++ _ = _
  rw [append_ok_append_replicate, hlen]
  rfl

end Sys2Proof.Machine
end

section
/-! The system commands (spec 44_system R120 to R123): the words that carry them, and what they leave. -/

namespace Sys2Proof

/-- A bit of `arg` above a command's operand makes the word illegal (R61, R65). -/
theorem decode_opcodeOf_append_reserved {i : Instr} {arg : BitVec 32} (h : arg >>> (formatOf i).bits ≠ 0) :
    decode (opcodeOf i ++ arg) = .illegal .reservedBit :=
  (decode_opcodeOf_append i arg).trans (if_neg h)

end Sys2Proof

namespace Sys2Proof.Machine

open Sys2Proof

theorem exec_nop (s : State) : exec .nop s = .next (answered s 0x00 0 s.toBlock) := rfl

theorem exec_reset (s : State) : exec .reset s = .next (answered s 0x00 0 Block.reset) := rfl

theorem exec_errclr (s : State) :
    exec .errclr s = .next (answered s 0x00 0 { s.toBlock with errFlags := 0, errInfo := 0 }) := rfl

theorem exec_rd_readable {s : State} {a : BitVec 16} {v : Long} (h : memRead s.toBlock a = some v) :
    exec (.rd a) s = .next (answered s 0x00 v s.toBlock) := execRd_some h

theorem exec_rd_unreadable {s : State} {a : BitVec 16} (h : memRead s.toBlock a = none) :
    exec (.rd a) s = .next (answered s 0x03 0 { s.toBlock with errFlags := s.errFlags ||| 0x08 }) := execRd_none h

/-- Settles O16: the reserved bit of the neighbouring word is its argument, and the meaning is the response alone. -/
theorem nopOnlyAnswersOk : Obligations.NopOnlyAnswersOk :=
  ⟨decode_encode .nop, decode_opcodeOf_append_reserved (i := .nop) (arg := 1) (by decide), exec_nop⟩

/-- Settles O17: every bit of `arg` is reserved, and the meaning is the reset values and a response. -/
theorem resetCommandResetsAndAnswersOk : Obligations.ResetCommandResetsAndAnswersOk := by
  refine ⟨decode_encode .reset, fun arg harg => ?_, exec_reset⟩
  have hbits : arg >>> (formatOf .reset).bits = arg := BitVec.ushiftRight_zero arg
  exact decode_opcodeOf_append_reserved (i := .reset) (hbits.symm ▸ harg)

/-- Settles O18: clearing a clear record rewrites its own values, and the effect of any command but `ERRCLR` and
`RESET` keeps the flags that are set. -/
theorem errclrClearsTheErrorRecord : Obligations.ErrclrClearsTheErrorRecord := by
  refine ⟨decode_encode .errclr, fun s => ⟨exec_errclr s, ?clear, fun t ht => ?views, fun i t j ht hs hc => ?sole⟩⟩
  case clear =>
    rintro ⟨hflags, hinfo⟩
    rw [exec_errclr, ← hflags, ← hinfo]
  case views =>
    obtain rfl := Host.Outcome.next.inj ((exec_errclr s).symm.trans ht)
    exact ⟨rfl, status_getLsbD _ 5⟩
  case sole => exact (exec_effect ht).clears_flag hs hc

/-- Settles O19: the zeros before the address are its extension to `arg`, and the read map decides the outcome. -/
theorem rdAnswersTheReadMap : Obligations.RdAnswersTheReadMap := fun _ a =>
  ⟨decode_append_zeros_append (k := 16) rfl (i := .rd a) rfl, fun _ => exec_rd_readable, exec_rd_unreadable⟩

end Sys2Proof.Machine
end

section
/-! What a failing command changes (spec 60_exceptions R133, R134; 10_state R24, R25): its flag, its own result, and
nothing else. -/

namespace Sys2Proof.Machine

open Sys2Proof

/-- Command `i`, which answers `code ‖ data` and takes `s` to `t`, fails as R133 and R134 ask. The elements of `RXW`,
which nobody can read after a failing `DEC`, are left open for `DEC` alone. -/
structure FailsPrecisely (i : Instr) (s t : State) (code : BitVec 8) (data : Long) : Prop where
  isErrCode : code.toNat ≤ 7
  moves : t.moves = s.moves
  registers : t.toBlock = { s.toBlock with
    errFlags := s.errFlags ||| BitVec.twoPow 8 code.toNat
    errInfo := if code = 0x07 ∧ s.errFlags.getLsbD 7 = false then data.setWidth 24 else s.errInfo
    txLen := if i = .enc then 0 else s.txLen
    txRes := if i = .enc then 0 else s.txRes
    rxNw := if i = .dec then 0 else s.rxNw
    rxRes := if i = .dec then 3 else s.rxRes
    rxw := t.rxw }
  rxw : i ≠ .dec → t.rxw = s.rxw

theorem errCode_toNat_le (e : ErrCode) : (errCode e).toNat ≤ 7 := by cases e <;> decide

/-- A failure's response code is also its bit number in `ERR_FLAGS` (R130). -/
theorem setFlag_eq_or_twoPow (f : BitVec 8) (e : ErrCode) : setFlag f e = f ||| BitVec.twoPow 8 (errCode e).toNat := by
  cases e <;> rfl

theorem errCode_eq_seven_iff (e : ErrCode) : errCode e = 7#8 ↔ e = .checksum := by cases e <;> decide

/-- `raise` alone is all that a failing command other than `ENC` and `DEC` does. -/
theorem failsPrecisely_raise {i : Instr} {e : ErrCode} (henc : i ≠ .enc) (hdec : i ≠ .dec) (he : e ≠ .checksum)
    (s : State) : FailsPrecisely i s (raise e 0 s) (errCode e) 0 where
  isErrCode := errCode_toNat_le e
  moves := rfl
  registers := by simp [henc, hdec, he, errCode_eq_seven_iff, setFlag_eq_or_twoPow]
  rxw _ := rfl

/-- A refused `ENC` withdraws the earlier frame. -/
theorem failsPrecisely_enc (s : State) :
    FailsPrecisely .enc s (raise .config 0 { s with txLen := 0, txRes := txResNone }) (errCode .config) 0 where
  isErrCode := errCode_toNat_le _
  moves := rfl
  registers := by simp [errCode_eq_seven_iff, setFlag_eq_or_twoPow]
  rxw _ := rfl

/-- A `DEC` that fails before it looks at a CRC byte withdraws the earlier words. -/
theorem failsPrecisely_dec {e : ErrCode} (he : e ≠ .checksum) (s : State) :
    FailsPrecisely .dec s (raise e 0 (withdrawWords s)) (errCode e) 0 where
  isErrCode := errCode_toNat_le e
  moves := rfl
  registers := by simp [he, errCode_eq_seven_iff, setFlag_eq_or_twoPow]
  rxw h := absurd rfl h

/-- A `DEC` with a wrong CRC byte also keeps the payload of the first such failure (R25). -/
theorem failsPrecisely_dec_checksum (info : BitVec 24) (ws : Vector Word Config.rxwMax) (s : State) :
    FailsPrecisely .dec s (raise .checksum (info.setWidth 32) (captureInfo info (withdrawWords { s with rxw := ws })))
      (errCode .checksum) (info.setWidth 32) where
  isErrCode := errCode_toNat_le _
  moves := rfl
  registers := by
    cases hflag : s.errFlags[7] <;>
      simp [hflag, errCode_eq_seven_iff, setFlag_eq_or_twoPow, flagSet, errNumber]
  rxw h := absurd rfl h

/-- Every command completes and answers `OK`, or fails precisely. -/
theorem exec_ok_or_failsPrecisely (i : Instr) (s : State) :
    ∃ t code data, exec i s = .next t ∧ t.rsps = s.rsps ++ [code ++ data] ∧
      (code = okCode ∨ FailsPrecisely i s t code data) := by
  cases i
  case rd a =>
    obtain ⟨_, _, h⟩ | ⟨_, h⟩ := execRd_cases a s
    · exact ⟨_, _, _, h, rfl, .inl rfl⟩
    · exact ⟨_, _, _, h, rfl, .inr (failsPrecisely_raise (by nofun) (by nofun) (by nofun) s)⟩
  case setw w =>
    obtain ⟨_, h⟩ | ⟨_, h⟩ := execSetw_cases w s
    · exact ⟨_, _, _, h, rfl, .inl rfl⟩
    · exact ⟨_, _, _, h, rfl, .inr (failsPrecisely_raise (by nofun) (by nofun) (by nofun) s)⟩
  case txw v =>
    obtain ⟨_, h⟩ | ⟨_, h⟩ := execTxw_cases v s
    · exact ⟨_, _, _, h, rfl, .inr (failsPrecisely_raise (by nofun) (by nofun) (by nofun) s)⟩
    · exact ⟨_, _, _, h, rfl, .inl rfl⟩
  case rxb d =>
    obtain ⟨_, h⟩ | ⟨_, h⟩ := execRxb_cases d s
    · exact ⟨_, _, _, h, rfl, .inr (failsPrecisely_raise (by nofun) (by nofun) (by nofun) s)⟩
    · exact ⟨_, _, _, h, rfl, .inl rfl⟩
  case enc =>
    obtain ⟨_, h⟩ | ⟨_, _, h⟩ | ⟨_, _, h⟩ := execEnc_cases s
    · exact ⟨_, _, _, h, rfl, .inl rfl⟩
    · exact ⟨_, _, _, h, rfl, .inr (failsPrecisely_enc s)⟩
    · exact ⟨_, _, _, h, rfl, .inl rfl⟩
  case dec =>
    obtain ⟨_, h⟩ | ⟨_, _, _, h⟩ | ⟨_, _, _, h⟩ | ⟨_, _, _, info, _, h⟩ | ⟨_, _, _, _, h⟩ := execDec_cases s
    · exact ⟨_, _, _, h, rfl, .inl rfl⟩
    · exact ⟨_, _, _, h, rfl, .inr (failsPrecisely_dec (by nofun) s)⟩
    · exact ⟨_, _, _, h, rfl, .inr (failsPrecisely_dec (by nofun) s)⟩
    · exact ⟨_, _, _, h, rfl, .inr (failsPrecisely_dec_checksum info _ s)⟩
    · exact ⟨_, _, _, h, rfl, .inl rfl⟩
  all_goals exact ⟨_, _, _, rfl, rfl, .inl rfl⟩

/-- Settles O52: the response decides between the two outcomes of `exec_ok_or_failsPrecisely`. -/
theorem failuresArePrecise : Obligations.FailuresArePrecise := by
  intro i s t code data hexec hrsps hcode
  obtain ⟨u, c, d, hu, hursps, hout⟩ := exec_ok_or_failsPrecisely i s
  obtain rfl : u = t := Host.Outcome.next.inj (hu.symm.trans hexec)
  obtain ⟨rfl, rfl⟩ : c = code ∧ d = data :=
    append_eq_append_iff.1 (List.singleton_inj.1 (List.append_cancel_left (hursps.symm.trans hrsps)))
  obtain hok | ⟨hle, hmoves, hregs, hrxw⟩ := hout
  · exact absurd hok hcode
  · exact ⟨hle, hmoves, hregs, hrxw⟩

end Sys2Proof.Machine
end

section
/-! What the host finds at the end of a run (spec 70_reset_and_hazards R150, R158, R160). -/

namespace Sys2Proof.Machine

open Sys2Proof

/-- Settles O9: `rst` is one step to the reset registers (R150), and an idle step stays where it is. -/
theorem rstResetsAndAnswersNothing : Obligations.RstResetsAndAnswersNothing :=
  fun _ => ⟨fun _ _ => step_rst, step_idle⟩

theorem commandCount_cons (m : HostMove) (ms : List HostMove) :
    commandCount (m :: ms) = commandCount [m] + commandCount ms := by
  cases m with
  | command c => exact Nat.add_comm _ 1
  | rst p => exact (Nat.zero_add _).symm

/-- One step takes exactly the host's next move and responds to it if it is a command word (R62, R150). -/
theorem step_takes_move {s : State} {m : HostMove} {rest : List HostMove} (h : s.moves = m :: rest) :
    ∃ t rs, step s = .next t ∧ t.moves = rest ∧ t.rsps = s.rsps ++ rs ∧ rs.length = commandCount [m] := by
  cases m with
  | command c =>
    obtain ⟨t, code, data, hstep, hmoves, hrsps, _⟩ := everyCommandWordGetsOneResponse s c rest h
    exact ⟨t, [code ++ data], hstep, hmoves, hrsps, rfl⟩
  | rst p => exact ⟨_, [], step_rst h, rfl, (List.append_nil _).symm, rfl⟩

/-- A run with one step for each of the host's moves takes them all, and the responses of its steps add up. -/
theorem run_takes_all_moves (ms : List HostMove) (s : State) (h : s.moves = ms) :
    ∃ (t : State) (rs : List RspWord), Host.Core.run Sys2Proof.core ms.length s = .next t ∧ t.moves = [] ∧
      t.rsps = s.rsps ++ rs ∧ rs.length = commandCount ms := by
  induction ms generalizing s with
  | nil => exact ⟨s, [], rfl, h, (List.append_nil _).symm, rfl⟩
  | cons m rest ih =>
    obtain ⟨u, first, hstep, humoves, hursps, hfirst⟩ := step_takes_move h
    obtain ⟨t, later, hrun, hmoves, hrsps, hlater⟩ := ih u humoves
    refine ⟨t, first ++ later, ?_, hmoves, ?_, ?_⟩
    · exact (run_succ_of_step (M := Sys2Proof.core) hstep rest.length).trans hrun
    · rw [hrsps, hursps, List.append_assoc]
    · rw [List.length_append, hfirst, hlater, commandCount_cons m rest]

/-- Settles O11, by induction on the host's moves (`run_takes_all_moves`). -/
theorem everyRunEndsWithAllCommandsAnswered : Obligations.EveryRunEndsWithAllCommandsAnswered :=
  fun s => run_takes_all_moves s.moves s rfl

end Sys2Proof.Machine
end

section
/-! What the model keeps in elements nobody can read (its log entry 7; spec 93_implementation_defined I2). -/

namespace Sys2Proof.Machine

open Sys2Proof

/-- A write from the start keeps every element at or beyond its length. -/
theorem writeFrom_zero_getElem?_of_le {w n j : Nat} (xs : Vector (BitVec w) n) {vs : List (BitVec w)}
    (h : vs.length ≤ j) : (writeFrom xs 0 vs)[j]? = xs[j]? := by
  rw [writeFrom_getElem?, if_neg (by omega)]

/-- `DEC` makes at most one word of every two received bytes, with or without a wrong CRC byte (R112). -/
theorem decodeBlocks_length_le (b : Block) : (decodeBlocks b).1.length ≤ b.rxLen.toNat / 2 := by
  have hle : (rxBytes b).length ≤ b.rxLen.toNat := (rxBytes_length b).trans_le (min_le_left _ _)
  cases hc : rxCrcOn b with
  | true =>
    rw [decodeBlocks_crcOn hc]
    exact (decodeTriples_length b 0 _).1.trans (Nat.div_le_div hle (by decide) (by decide))
  | false =>
    rw [decodeBlocks_crcOff hc]
    exact (decodePairs_length b _).trans_le (Nat.div_le_div_right hle)

theorem exec_enc_keeps_txBuf_beyond_frame {s t : State} {j : Nat} (h : exec .enc s = .next t)
    (hj : t.txLen.toNat ≤ j) : t.txBuf[j]? = s.txBuf[j]? := by
  obtain ⟨_, ht⟩ | ⟨_, _, ht⟩ | ⟨_, _, ht⟩ := execEnc_cases s <;>
    obtain rfl := Host.Outcome.next.inj (h.symm.trans ht)
  · rfl
  · rfl
  · exact writeFrom_zero_getElem?_of_le s.txBuf ((toNat_frameBytes_length s.toBlock).symm.trans_le hj)

theorem exec_dec_keeps_rxw_beyond_words {s t : State} {j : Nat} (h : exec .dec s = .next t)
    (hj : s.rxLen.toNat / 2 ≤ j) : t.rxw[j]? = s.rxw[j]? := by
  have hkept := writeFrom_zero_getElem?_of_le s.rxw ((decodeBlocks_length_le s.toBlock).trans hj)
  obtain ⟨_, ht⟩ | ⟨_, _, _, ht⟩ | ⟨_, _, _, ht⟩ | ⟨_, _, _, _, _, ht⟩ | ⟨_, _, _, _, ht⟩ := execDec_cases s <;>
    obtain rfl := Host.Outcome.next.inj (h.symm.trans ht)
  · rfl
  · rfl
  · rfl
  · exact hkept
  · exact hkept

/-- Settles O58: a frame and the decoded words are written from the start of their arrays, and neither reaches
beyond the stated length. -/
theorem elementsBeyondAResultAreKept : Obligations.ElementsBeyondAResultAreKept := fun _ _ _ =>
  ⟨fun h hj _ => exec_enc_keeps_txBuf_beyond_frame h hj, exec_dec_keeps_rxw_beyond_words⟩

end Sys2Proof.Machine
end
